-- ==== Sys2Proof/Word.lean ====
section
/-! DEFINITION. The word, address and byte types of MYRA-SCALER. -/

namespace Sys2Proof

/-- Every register is 32 bits wide (10_state R20). -/
abbrev Word := BitVec 32

/-- A bus address: ADDR_W = 32 bits (00_scope R6, R9; log 15). -/
abbrev Addr := BitVec 32

/-- The byte, the unit of the flat memory (20_memory R60). -/
abbrev Byte := BitVec 8

end Sys2Proof
end

