-- ==== Sys2Proof/Syntax.lean ====
section
/-! DEFINITION. The 13 commands of MYRA-SCALER (30_encoding R97), one constructor a row of the opcode table. -/

namespace Sys2Proof

/-- The two pixel formats (00_scope R11). -/
inductive Format where
  | xrgb8888
  | rgb565
  deriving DecidableEq, Repr

/-- The two filter descriptors (30_encoding R94): `a` is DESC = 0, `b` is DESC = 1. -/
inductive Desc where
  | a
  | b
  deriving DecidableEq, Repr

/-- A command with the fields its opcode uses (30_encoding R97). A field an opcode ignores is no part of it (R96). `slot` is
the number in SLOT (0..15, R95) and `fmt` the code in FMT (0..3, R93): codes that name no slot or no format are encodings the
command itself answers with an error code (R99). -/
inductive Instr where
  /-- OP 0x00, 43_registry R180. -/
  | nop
  /-- OP 0x01, 43_registry R181. -/
  | qinfmt
  /-- OP 0x02, 43_registry R182. -/
  | qoutfmt
  /-- OP 0x03, 43_registry R183. -/
  | create (desc : Desc) (fmt : Nat)
  /-- OP 0x04, 43_registry R185. -/
  | destroy (slot : Nat)
  /-- OP 0x05, 43_registry R186. -/
  | outsize (slot : Nat)
  /-- OP 0x06, 43_registry R187. -/
  | firstpass (slot : Nat)
  /-- OP 0x07, 44_render R200. -/
  | render (slot : Nat)
  /-- OP 0x10, 40_blend R117. -/
  | blend2 (fmt : Nat)
  /-- OP 0x11, 40_blend R118. -/
  | blend4 (fmt : Nat)
  /-- OP 0x12, 41_classifier R133. -/
  | cmp (fmt : Nat)
  /-- OP 0x13, 41_classifier R138. -/
  | classify (fmt : Nat)
  /-- OP 0x14, 42_kernels R160. -/
  | block (desc : Desc) (fmt : Nat)
  deriving DecidableEq, Repr

end Sys2Proof
end

