-- ==== Sys2Proof/WellFormed.lean ====
section
/-! DEFINITION. Which terms of `Instr` are commands: every field fits its bits of the command word (30_encoding R91). -/

namespace Sys2Proof

/-- SLOT has 4 bits (30_encoding R91). -/
abbrev slotFits (slot : Nat) : Prop := slot < 16

/-- FMT has 2 bits (30_encoding R91). -/
abbrev fmtFits (fmt : Nat) : Prop := fmt < 4

/-- Every field of the command fits the width R91 gives it. -/
def Instr.wf : Instr → Bool
  | .nop => true
  | .qinfmt => true
  | .qoutfmt => true
  | .create _ fmt => decide (fmtFits fmt)
  | .destroy slot => decide (slotFits slot)
  | .outsize slot => decide (slotFits slot)
  | .firstpass slot => decide (slotFits slot)
  | .render slot => decide (slotFits slot)
  | .blend2 fmt => decide (fmtFits fmt)
  | .blend4 fmt => decide (fmtFits fmt)
  | .cmp fmt => decide (fmtFits fmt)
  | .classify fmt => decide (fmtFits fmt)
  | .block _ fmt => decide (fmtFits fmt)

end Sys2Proof
end

