-- ==== Sys2Proof/Decode.lean ====
section
/-! DEFINITION. The command word: its fields (30_encoding R91), the decoder (R99), total on every 32-bit word, and the encoder. -/

namespace Sys2Proof

/-- Why a word is no command (30_encoding R92, R98). Both answer E_ILLEGAL (60_exceptions R230). -/
inductive Illegal where
  /-- A bit of RSV0 or RSV1 is 1. -/
  | reservedBits
  /-- OP is not in the table of 30_encoding R97. -/
  | unassignedOp
  deriving DecidableEq, Repr

/-- OP, bits 7:0 (30_encoding R91). -/
def opField (c : Word) : BitVec 8 := c.extractLsb' 0 8

/-- SLOT, bits 11:8. -/
def slotField (c : Word) : BitVec 4 := c.extractLsb' 8 4

/-- DESC, bit 12. -/
def descField (c : Word) : BitVec 1 := c.extractLsb' 12 1

/-- RSV0, bits 15:13. -/
def rsv0Field (c : Word) : BitVec 3 := c.extractLsb' 13 3

/-- FMT, bits 17:16. -/
def fmtField (c : Word) : BitVec 2 := c.extractLsb' 16 2

/-- RSV1, bits 31:18. -/
def rsv1Field (c : Word) : BitVec 14 := c.extractLsb' 18 14

/-- DESC = 0 is descriptor A, DESC = 1 descriptor B (30_encoding R94). -/
def descOfBit (b : BitVec 1) : Desc := if b = 0#1 then .a else .b

/-- The bit of a descriptor (30_encoding R94). -/
def descBit : Desc → BitVec 1
  | .a => 0#1
  | .b => 1#1

/-- The decoding procedure (30_encoding R99): reserved bits first, then OP. -/
def decode (c : Word) : Except Illegal Instr :=
  if rsv1Field c ≠ 0#14 ∨ rsv0Field c ≠ 0#3 then .error .reservedBits
  else
    match (opField c).toNat with
    | 0x00 => .ok .nop
    | 0x01 => .ok .qinfmt
    | 0x02 => .ok .qoutfmt
    | 0x03 => .ok (.create (descOfBit (descField c)) (fmtField c).toNat)
    | 0x04 => .ok (.destroy (slotField c).toNat)
    | 0x05 => .ok (.outsize (slotField c).toNat)
    | 0x06 => .ok (.firstpass (slotField c).toNat)
    | 0x07 => .ok (.render (slotField c).toNat)
    | 0x10 => .ok (.blend2 (fmtField c).toNat)
    | 0x11 => .ok (.blend4 (fmtField c).toNat)
    | 0x12 => .ok (.cmp (fmtField c).toNat)
    | 0x13 => .ok (.classify (fmtField c).toNat)
    | 0x14 => .ok (.block (descOfBit (descField c)) (fmtField c).toNat)
    | _ => .error .unassignedOp

/-- The fields of a command word put together, bit 31 first: RSV1, FMT, RSV0, DESC, SLOT, OP (30_encoding R91). -/
def commandWord (fmt : Nat) (desc : Desc) (slot op : Nat) : Word :=
  0#14 ++ BitVec.ofNat 2 fmt ++ 0#3 ++ descBit desc ++ BitVec.ofNat 4 slot ++ BitVec.ofNat 8 op

/-- The word of a command (30_encoding R97, R101): a field the command does not use is 0. -/
def encode : Instr → Word
  | .nop => commandWord 0 .a 0 0x00
  | .qinfmt => commandWord 0 .a 0 0x01
  | .qoutfmt => commandWord 0 .a 0 0x02
  | .create desc fmt => commandWord fmt desc 0 0x03
  | .destroy slot => commandWord 0 .a slot 0x04
  | .outsize slot => commandWord 0 .a slot 0x05
  | .firstpass slot => commandWord 0 .a slot 0x06
  | .render slot => commandWord 0 .a slot 0x07
  | .blend2 fmt => commandWord fmt .a 0 0x10
  | .blend4 fmt => commandWord fmt .a 0 0x11
  | .cmp fmt => commandWord fmt .a 0 0x12
  | .classify fmt => commandWord fmt .a 0 0x13
  | .block desc fmt => commandWord fmt desc 0 0x14

/-- The command the decoder reads from a table row's word. A command is one 32-bit word (30_encoding R90), so a number of
more than 32 bits is no command; the bits above `nbits` are taken as the number has them, 0 for a row's word. -/
def decodeTableWord (_nbits w : Nat) : Option Instr :=
  if w < 2 ^ 32 then
    match decode (BitVec.ofNat 32 w) with
    | .ok i => some i
    | .error _ => none
  else none

end Sys2Proof
end

