-- ==== Sys2Proof/Config.lean ====
section
/-! DEFINITION. What an implementation or the platform fixes (00_scope R6), and the free values of the model. An opaque
constant has no value anything in Lean can see, so a statement that holds of it holds of every value. -/

namespace Sys2Proof.Config

/-- NSLOT, the number of filter-instance slots: 4 (00_scope R6; log 15). -/
abbrev nslot : Nat := 4

/-- The two byte orders of 20_memory R62. -/
inductive Endian where
  | le
  | be
  deriving DecidableEq, Repr

/-- ENDIAN, the byte order of elements in memory: LE (00_scope R6, 20_memory R62; log 15). -/
def endian : Endian := .le

/-- REG_BASE, the bus address of the register block: OPEN (00_scope R6, 10_state R20; log 14). Nothing says that it is a multiple of 4,
and nothing here requires it (DESIGN CHOICE, log 25). -/
opaque regBase : Addr

/-- IRQ_ROUTE, the platform's interrupt input the line is wired to: OPEN (60_exceptions R240; log 17). -/
opaque irqRoute : Nat

/-- COHERENT, whether engine accesses agree with the host's caches: OPEN (20_memory R80; log 16). -/
opaque coherent : Bool

/-- T_STEP, clock cycles an engine step takes: OPEN and informative only (70_reset_and_hazards R274; log 17). -/
opaque tStep : Nat

/-- FREE VALUE. Which of the remaining blocks the engine takes next, by draw number (20_memory R76, 44_render R215,
93 U15; log 3). -/
opaque freePick : Nat → Nat

/-- FREE VALUE. The byte at an address (second argument) of a destination that holds any value, by draw number
(44_render R212, 70_reset_and_hazards R262, 93 U5, U6, U8, U10; log 5). -/
opaque freeByte : Nat → Nat → Byte

/-- FREE VALUE. Whether a host read during BUSY sees the old value of the destination element at an address (second
argument) rather than its final one, by draw number (20_memory R75, 93 U7; log 6). -/
opaque freeOld : Nat → Nat → Bool

end Sys2Proof.Config
end

