-- ==== Sys2Proof/Machine/State.lean ====
section
/-! DEFINITION. The state of MYRA-SCALER with the host and the platform it is wired to, as plain data (10_state, 60_exceptions
R243, 70_reset_and_hazards R261), and the reasons a step can stop. -/

namespace Sys2Proof.Machine

/-- The error codes a command completes with (60_exceptions R230); codes 7 to 15 are never produced. -/
inductive Err where
  | eNone
  | eIllegal
  | eConfig
  | eNomem
  | eNoslot
  | eSize
  | eAlign
  deriving DecidableEq, Repr

/-- The flat byte-addressed memory (20_memory R60): address and byte pairs, addresses rising, no entry for a byte that holds
what an unlisted address reads as (`Memory.wf`). -/
abbrev Memory := List Host.Cell

/-- What a live instance slot holds (10_state R40). An empty slot holds nothing: valid, fmt and desc all read 0 (log 10). -/
structure Inst where
  fmt : Format
  desc : Desc
  deriving DecidableEq, Repr

/-- The engine state of a RENDER in progress (10_state R41, 44_render R203). -/
structure Job where
  /-- lat_src. -/
  src : Word
  /-- lat_sstride. -/
  sstride : Word
  /-- lat_dst. -/
  dst : Word
  /-- lat_dstride. -/
  dstride : Word
  /-- lat_w. -/
  w : BitVec 16
  /-- lat_h. -/
  h : BitVec 16
  /-- lat_fmt. -/
  fmt : Format
  /-- lat_desc. -/
  desc : Desc
  /-- lat_clamp. -/
  clamp : Bool
  /-- S0, the contents of memory at acceptance (44_render R203). -/
  s0 : Memory
  /-- done_blocks, in row-major order (log 3). -/
  done : List (Nat × Nat)
  /-- Another agent has written a byte of the read set or of the destination (20_memory R74, R75; log 18). -/
  disturbed : Bool
  /-- The platform has refused an access: no further step (20_memory R72; log 8). -/
  stuck : Bool
  deriving DecidableEq, Repr

/-- The width of a host access: one, two or four bytes (for a memory access DESIGN CHOICE, log 27). -/
inductive Size where
  | byte
  | half
  | word
  deriving DecidableEq, Repr

/-- What a region of the address space that is not ordinary memory is. -/
inductive RegionKind where
  /-- The platform refuses accesses (20_memory R72), reads and writes of every agent (log 28). -/
  | refused
  /-- Reads have side effects (20_memory R70). -/
  | sideEffects
  deriving DecidableEq, Repr

/-- A region of the platform's address map: `size` bytes from `base` (20_memory R70 to R72; log 7). -/
structure Region where
  base : Nat
  size : Nat
  kind : RegionKind
  deriving DecidableEq, Repr

/-- One atomic step still to come (60_exceptions R243, 70_reset_and_hazards R260, 30_encoding R102, R103; log 1). -/
inductive Action where
  /-- A host read of the register block at an offset. -/
  | regRead (off : BitVec 8) (size : Size)
  /-- A host write of the register block at an offset. -/
  | regWrite (off : BitVec 8) (size : Size) (v : Word)
  /-- A host read at a bus address, of the register block if the address lies in it, else of memory. -/
  | busRead (a : Addr) (size : Size)
  /-- A host write at a bus address, of the register block if the address lies in it, else of memory. -/
  | busWrite (a : Addr) (size : Size) (v : Word)
  /-- A host read of memory. -/
  | memRead (a : Addr) (size : Size)
  /-- A host write of memory. -/
  | memWrite (a : Addr) (size : Size) (v : Word)
  /-- An engine step, on the block a number names among those that remain, or on one drawn freely (log 3). -/
  | engine (choice : Option Nat)
  /-- `wait_idle` (30_encoding R103; log 13). -/
  | waitIdle
  /-- `check_ok` (30_encoding R103; log 13). -/
  | checkOk
  /-- The reset input (70_reset_and_hazards R260). -/
  | reset
  deriving DecidableEq, Repr

/-- The registers of the register map (10_state R21). -/
inductive Reg where
  | id
  | caps
  | ctrl
  | status
  | cmd
  | result
  | slots
  | slotcfg
  | srcAddr
  | srcStride
  | dstAddr
  | dstStride
  | width
  | height
  | outw
  | outh
  | opa
  | opb
  | opc
  | opd
  | win (k : Fin 16)
  | p0
  | p1
  | p2
  | p3
  deriving DecidableEq, Repr

/-- The 4x4 window by the letters of 41_classifier R130: rows I E F J, G A B K, H C D L, M N O P. -/
structure Window where
  i : Word
  e : Word
  f : Word
  j : Word
  g : Word
  a : Word
  b : Word
  k : Word
  h : Word
  c : Word
  d : Word
  l : Word
  m : Word
  n : Word
  o : Word
  p : Word
  deriving DecidableEq, Repr

/-- The three cases of a window (41_classifier R136). -/
inductive Case where
  | edge
  | diag
  | generic
  deriving DecidableEq, Repr

/-- The four elements of a destination block (42_kernels R150). -/
structure Block where
  p00 : Word
  p01 : Word
  p10 : Word
  p11 : Word
  deriving DecidableEq, Repr

/-- Why the machine stops with a fault. -/
inductive Fault where
  /-- Raised by a host memory access to an address the platform refuses: the spec gives no answer (log 7). Safe: the run stops. -/
  | hostBusError
  /-- Raised by `check_ok` on STATUS.ERR ≠ 0: the host program requires 0 (30_encoding R103; log 13). Safe: the run stops. -/
  | checkFailed
  deriving DecidableEq, Repr

/-- Why the machine gives no meaning. -/
inductive Refusal where
  /-- Raised by `exec` for a command with no meaning yet. Safe: the run stops. -/
  | notModelled (mnemonic : String)
  /-- Raised by a host access of the register block that is not an aligned 32-bit access inside it (10_state R44; log 11). Safe:
  the spec gives it no step. -/
  | undefinedAccess
  /-- Raised by a host memory access to a region whose reads have side effects, which the spec does not describe (20_memory R70;
  log 7). Safe: the run stops. -/
  | deviceAccess
  deriving DecidableEq, Repr

/-- The state: the block's registers (10_state R21), its slots (R40), its engine (R41), the memory it shares with the host
(R48), and the model's own account of the host and the platform (log 1, 3, 7, 12). -/
structure State where
  /-- CTRL.CLAMP (R24). -/
  ctrlClamp : Bool
  /-- CTRL.IE (R24). -/
  ctrlIe : Bool
  /-- STATUS.DONE (R25). -/
  statusDone : Bool
  /-- STATUS.OVR (R25). -/
  statusOvr : Bool
  /-- STATUS.ERR (R25). -/
  statusErr : Err
  /-- CMD (R26). -/
  cmd : Word
  /-- RESULT (R27). -/
  result : Word
  /-- The instance slots (R40), seen through SLOTS (R28) and SLOTCFG (R29). -/
  slots : Vector (Option Inst) Config.nslot
  /-- SRC_ADDR (R30). -/
  srcAddr : Word
  /-- SRC_STRIDE (R31). -/
  srcStride : Word
  /-- DST_ADDR (R32). -/
  dstAddr : Word
  /-- DST_STRIDE (R33). -/
  dstStride : Word
  /-- WIDTH[15:0] (R34). -/
  width : BitVec 16
  /-- HEIGHT[15:0] (R35). -/
  height : BitVec 16
  /-- OUTW (R36). -/
  outw : Word
  /-- OUTH (R36). -/
  outh : Word
  /-- OPA (R37). -/
  opa : Word
  /-- OPB (R37). -/
  opb : Word
  /-- OPC (R37). -/
  opc : Word
  /-- OPD (R37). -/
  opd : Word
  /-- WIN0 to WIN15 (R38). -/
  win : Vector Word 16
  /-- P0 (R39). -/
  p0 : Word
  /-- P1 (R39). -/
  p1 : Word
  /-- P2 (R39). -/
  p2 : Word
  /-- P3 (R39). -/
  p3 : Word
  /-- The RENDER in progress, if any (R41); STATUS.BUSY is 1 exactly while there is one (R25, 60_exceptions R232). -/
  engine : Option Job
  /-- Memory (R48, 20_memory R60). -/
  mem : Memory
  /-- MODEL's own: the regions that are not ordinary memory (log 7). -/
  platform : List Region
  /-- MODEL's own: the atomic steps still to come, the next one first (log 1). -/
  script : List Action
  /-- MODEL's own: the data the last host read returned (log 12). -/
  hostData : Word
  /-- MODEL's own: how many free values have been drawn (log 3). -/
  draws : Nat
  deriving DecidableEq, Repr

/-- The state after reset (70_reset_and_hazards R261): CTRL = 1, every other writable register 0, no instance, engine idle.
Memory is the platform's (R263): nothing is listed (log 4). The model's own fields are empty or 0 (log 2, 3, 7, 12). -/
def State.reset : State where
  ctrlClamp := true
  ctrlIe := false
  statusDone := false
  statusOvr := false
  statusErr := .eNone
  cmd := 0#32
  result := 0#32
  slots := Vector.replicate Config.nslot none
  srcAddr := 0#32
  srcStride := 0#32
  dstAddr := 0#32
  dstStride := 0#32
  width := 0#16
  height := 0#16
  outw := 0#32
  outh := 0#32
  opa := 0#32
  opb := 0#32
  opc := 0#32
  opd := 0#32
  win := Vector.replicate 16 0#32
  p0 := 0#32
  p1 := 0#32
  p2 := 0#32
  p3 := 0#32
  engine := none
  mem := []
  platform := []
  script := []
  hostData := 0#32
  draws := 0

end Sys2Proof.Machine
end

