-- ==== Sys2Proof/Machine/Flags.lean ====
section
/-! DEFINITION. The status flags, the error codes and the interrupt line (10_state R24, R25; 60_exceptions R230, R240). -/

namespace Sys2Proof.Machine

/-- The number of an error code (60_exceptions R230). -/
def Err.code : Err → BitVec 4
  | .eNone => 0#4
  | .eIllegal => 1#4
  | .eConfig => 2#4
  | .eNomem => 3#4
  | .eNoslot => 4#4
  | .eSize => 5#4
  | .eAlign => 6#4

/-- STATUS.BUSY (10_state R25): 1 exactly while a RENDER is in progress (60_exceptions R232). -/
def State.busy (s : State) : Bool := s.engine.isSome

/-- The STATUS word, bit 31 first: zeros, ERR, zeros, OVR, DONE, BUSY (10_state R25). -/
def statusWord (s : State) : Word :=
  0#20 ++ s.statusErr.code ++ 0#5 ++ BitVec.ofBool s.statusOvr ++ BitVec.ofBool s.statusDone ++ BitVec.ofBool s.busy

/-- A write to STATUS clears DONE where bit 1 is 1 and OVR where bit 2 is 1, and changes nothing else (10_state R25). -/
def writeStatus (v : Word) (s : State) : State :=
  { s with
    statusDone := s.statusDone && !v.getLsbD 1
    statusOvr := s.statusOvr && !v.getLsbD 2 }

/-- The CTRL word: zeros, IE, CLAMP (10_state R24). -/
def ctrlWord (s : State) : Word := 0#30 ++ BitVec.ofBool s.ctrlIe ++ BitVec.ofBool s.ctrlClamp

/-- A write to CTRL sets CLAMP and IE; its other bits are ignored (10_state R24). -/
def writeCtrl (v : Word) (s : State) : State :=
  { s with ctrlClamp := v.getLsbD 0, ctrlIe := v.getLsbD 1 }

/-- The interrupt line, `irq = STATUS.DONE and CTRL.IE`, a function of state at every moment (60_exceptions R240). -/
def State.irq (s : State) : Bool := s.statusDone && s.ctrlIe

/-- The platform input the line raises, if it is up (60_exceptions R240; log 17). -/
def State.irqInput (s : State) : Option Nat := if s.irq then some Config.irqRoute else none

end Sys2Proof.Machine
end

