-- ==== Sys2Proof/Machine/Ops.lean ====
section
/-! DEFINITION. The named operations on memory, instance slots, registers and completion that the meanings share (20_memory R61,
R62; 10_state R21 to R43; 60_exceptions R231, R233). -/

namespace Sys2Proof.Machine

/-! ### Memory -/

/-- What a byte no entry lists reads as (70_reset_and_hazards R263; log 4). -/
def Memory.unlisted : Byte := 0#8

/-- The byte listed under a key. -/
def Memory.lookup : Memory → Nat → Byte
  | [], _ => Memory.unlisted
  | (k, b) :: rest, a => if k = a then b else Memory.lookup rest a

/-- The list with the byte under a key replaced, in canonical form. -/
def Memory.update : Memory → Nat → Byte → Memory
  | [], a, b => if b = Memory.unlisted then [] else [(a, b)]
  | (k, c) :: rest, a, b =>
    if a < k then (if b = Memory.unlisted then (k, c) :: rest else (a, b) :: (k, c) :: rest)
    else if a = k then (if b = Memory.unlisted then rest else (a, b) :: rest)
    else (k, c) :: Memory.update rest a b

/-- The canonical form from a key on: keys rising, inside the address space, no entry equal to what an unlisted byte reads as. -/
def Memory.wfFrom : Nat → Memory → Bool
  | _, [] => true
  | lo, (k, b) :: rest =>
    decide (lo ≤ k) && decide (k < 2 ^ 32) && !decide (b = Memory.unlisted) && Memory.wfFrom (k + 1) rest

/-- The canonical form of memory. -/
def Memory.wf (m : Memory) : Bool := Memory.wfFrom 0 m

/-- The byte at a bus address. -/
def Memory.read (m : Memory) (a : Addr) : Byte := Memory.lookup m a.toNat

/-- Memory with one byte stored. -/
def Memory.write (m : Memory) (a : Addr) (b : Byte) : Memory := Memory.update m a.toNat b

/-- The addresses of the `n` bytes of an element at `a`, modulo 2^32 (00_scope R9). -/
def elemBytes (n : Nat) (a : Addr) : List Addr := (List.range n).map fun k => a + BitVec.ofNat 32 k

/-- The value of bytes listed from the lowest address on (20_memory R62). -/
def assemble : Config.Endian → List Byte → Nat
  | .le, bs => bs.foldr (fun b acc => b.toNat + 256 * acc) 0
  | .be, bs => bs.foldl (fun acc b => 256 * acc + b.toNat) 0

/-- The `n` bytes of a value, the one at the lowest address first (20_memory R62). -/
def disassemble : Config.Endian → Nat → Word → List Byte
  | .le, n, v => (List.range n).map fun k => v.extractLsb' (8 * k) 8
  | .be, n, v => ((List.range n).map fun k => v.extractLsb' (8 * k) 8).reverse

/-- `MemRead(a, n)` (00_scope R9, 20_memory R62), zero-extended to a word. -/
def Memory.readElem (m : Memory) (n : Nat) (a : Addr) : Word :=
  BitVec.ofNat 32 (assemble Config.endian ((elemBytes n a).map m.read))

/-- Memory with each byte of a list stored at its address, the first pair first. -/
def Memory.writeBytes (m : Memory) (cells : List (Addr × Byte)) : Memory :=
  cells.foldl (fun m c => m.write c.1 c.2) m

/-- `MemWrite(a, n, v)` (00_scope R9, 20_memory R62). -/
def Memory.writeElem (m : Memory) (n : Nat) (a : Addr) (v : Word) : Memory :=
  m.writeBytes ((elemBytes n a).zip (disassemble Config.endian n v))

/-- Memory with a free byte at every address of a list: the destination holds any value (44_render R212; log 5). -/
def Memory.anyValue (m : Memory) (draw : Nat) (addrs : List Addr) : Memory :=
  m.writeBytes (addrs.map fun a => (a, Config.freeByte draw a.toNat))

/-! ### The platform's map -/

/-- Whether a region holds an address. -/
def Region.covers (r : Region) (a : Addr) : Bool := decide (r.base ≤ a.toNat) && decide (a.toNat < r.base + r.size)

/-- Whether the platform's map puts an address in a region of a kind (20_memory R70, R72; log 7). A region is what it is for reads and
writes, of host and engine alike (DESIGN CHOICE, log 28). -/
def inRegion (platform : List Region) (kind : RegionKind) (a : Addr) : Bool :=
  platform.any fun r => decide (r.kind = kind) && r.covers a

/-- The number of bytes of a host access. -/
def Size.bytes : Size → Nat
  | .byte => 1
  | .half => 2
  | .word => 4

/-! ### Instance slots -/

/-- The live instance in slot `i`; none for a slot that is not live and for every `i ≥ NSLOT` (30_encoding R95). -/
def instAt (s : State) (i : Nat) : Option Inst := s.slots[i]?.getD none

/-- slot[i].valid (10_state R40). -/
def slotValid (s : State) (i : Nat) : Bool := (instAt s i).isSome

/-- The FMT code of a format (30_encoding R93). -/
def formatCode : Format → BitVec 2
  | .xrgb8888 => 1#2
  | .rgb565 => 2#2

/-- The bit of a descriptor (30_encoding R94). -/
def descCode : Desc → BitVec 1
  | .a => 0#1
  | .b => 1#1

/-- slot[i].fmt, 0 in a slot that is not live (10_state R40). -/
def slotFmt (s : State) (i : Nat) : BitVec 2 :=
  match instAt s i with
  | none => 0#2
  | some inst => formatCode inst.fmt

/-- slot[i].desc, 0 in a slot that is not live (10_state R40). -/
def slotDesc (s : State) (i : Nat) : BitVec 1 :=
  match instAt s i with
  | none => 0#1
  | some inst => descCode inst.desc

/-- The least slot that is not live (43_registry R183). -/
def firstFree (s : State) : Option Nat := (List.range Config.nslot).find? fun i => (instAt s i).isNone

/-- Slot `i` made live with an instance, or freed. -/
def setSlot (i : Nat) (inst : Option Inst) (s : State) : State := { s with slots := s.slots.setIfInBounds i inst }

/-- SLOTS: bit i is slot[i].valid (10_state R28). -/
def slotsWord (s : State) : Word :=
  (List.range Config.nslot).foldr (fun i w => w ||| ((BitVec.ofBool (slotValid s i)).setWidth 32 <<< i)) 0#32

/-- SLOTCFG: nibble i is 0, slot[i].desc, slot[i].fmt (10_state R29). -/
def slotcfgWord (s : State) : Word :=
  (List.range Config.nslot).foldr
    (fun i w => w ||| ((0#1 ++ slotDesc s i ++ slotFmt s i).setWidth 32 <<< (4 * i))) 0#32

/-! ### The engine's latched state, 0 while no RENDER is in progress (10_state R41, 70_reset_and_hazards R261; log 10) -/

/-- lat_src. -/
def State.latSrc (s : State) : Word := (s.engine.map (·.src)).getD 0#32

/-- lat_sstride. -/
def State.latSstride (s : State) : Word := (s.engine.map (·.sstride)).getD 0#32

/-- lat_dst. -/
def State.latDst (s : State) : Word := (s.engine.map (·.dst)).getD 0#32

/-- lat_dstride. -/
def State.latDstride (s : State) : Word := (s.engine.map (·.dstride)).getD 0#32

/-- lat_w. -/
def State.latW (s : State) : BitVec 16 := (s.engine.map (·.w)).getD 0#16

/-- lat_h. -/
def State.latH (s : State) : BitVec 16 := (s.engine.map (·.h)).getD 0#16

/-- lat_fmt. -/
def State.latFmt (s : State) : BitVec 2 := (s.engine.map fun j => formatCode j.fmt).getD 0#2

/-- lat_desc. -/
def State.latDesc (s : State) : BitVec 1 := (s.engine.map fun j => descCode j.desc).getD 0#1

/-- lat_clamp. -/
def State.latClamp (s : State) : Bool := (s.engine.map (·.clamp)).getD false

/-- done_blocks. -/
def State.doneBlocks (s : State) : List (Nat × Nat) := (s.engine.map (·.done)).getD []

/-! ### Acceptance and completion: the block has no traps (60_exceptions R236), and an error is a completion with a code -/

/-- Acceptance of a command word (60_exceptions R233). -/
def accept (c : Word) (s : State) : State := { s with cmd := c, statusDone := false, statusErr := .eNone }

/-- A request dropped because BUSY = 1 (60_exceptions R233). -/
def dropRequest (s : State) : State := { s with statusOvr := true }

/-- `complete(err)` (00_scope R10, 60_exceptions R231): ERR, DONE = 1, BUSY = 0. -/
def complete (err : Err) (s : State) : State := { s with statusErr := err, statusDone := true, engine := none }

/-- `fail(err)`: `complete(err)` with no other effect of the command (60_exceptions R231). -/
def fail (err : Err) (s : State) : State := complete err s

/-- `fail_create(err)`: RESULT becomes the null instance, then `fail(err)` (43_registry R184). -/
def failCreate (err : Err) (s : State) : State := fail err { s with result := 0xFFFFFFFF#32 }

/-! ### The register map -/

/-- ID (10_state R22): "MY", 0, revision 7. -/
def idWord : Word := 0x4D59#16 ++ 0x00#8 ++ 0x07#8

/-- FMT_MASK, the input formats supported (00_scope R6, 43_registry R181). -/
def fmtMask : BitVec 2 := 0b11#2

/-- CAPS (10_state R23): zeros, SCALE = 2, NSLOT, zeros, DESCS, FMTS. -/
def capsWord : Word := 0#16 ++ 2#4 ++ BitVec.ofNat 4 Config.nslot ++ 0#4 ++ 0b11#2 ++ fmtMask

/-- The register at a word offset; none in the reserved range (10_state R21, R42). -/
def regAt : Nat → Option Reg
  | 0x00 => some .id
  | 0x04 => some .caps
  | 0x08 => some .ctrl
  | 0x0C => some .status
  | 0x10 => some .cmd
  | 0x14 => some .result
  | 0x18 => some .slots
  | 0x1C => some .slotcfg
  | 0x20 => some .srcAddr
  | 0x24 => some .srcStride
  | 0x28 => some .dstAddr
  | 0x2C => some .dstStride
  | 0x30 => some .width
  | 0x34 => some .height
  | 0x38 => some .outw
  | 0x3C => some .outh
  | 0x40 => some .opa
  | 0x44 => some .opb
  | 0x48 => some .opc
  | 0x4C => some .opd
  | 0x90 => some .p0
  | 0x94 => some .p1
  | 0x98 => some .p2
  | 0x9C => some .p3
  | off => if 0x50 ≤ off ∧ off < 0x90 ∧ off % 4 = 0 then some (.win (Fin.ofNat 16 ((off - 0x50) / 4))) else none

/-- The offset of a register (10_state R21). -/
def Reg.offset : Reg → BitVec 8
  | .id => 0x00#8
  | .caps => 0x04#8
  | .ctrl => 0x08#8
  | .status => 0x0C#8
  | .cmd => 0x10#8
  | .result => 0x14#8
  | .slots => 0x18#8
  | .slotcfg => 0x1C#8
  | .srcAddr => 0x20#8
  | .srcStride => 0x24#8
  | .dstAddr => 0x28#8
  | .dstStride => 0x2C#8
  | .width => 0x30#8
  | .height => 0x34#8
  | .outw => 0x38#8
  | .outh => 0x3C#8
  | .opa => 0x40#8
  | .opb => 0x44#8
  | .opc => 0x48#8
  | .opd => 0x4C#8
  | .win k => BitVec.ofNat 8 (0x50 + 4 * k)
  | .p0 => 0x90#8
  | .p1 => 0x94#8
  | .p2 => 0x98#8
  | .p3 => 0x9C#8

/-- `reg(NAME)`, a register read (00_scope R8, 10_state R21 to R39); it has no side effect (R44). -/
def readReg (r : Reg) (s : State) : Word :=
  match r with
  | .id => idWord
  | .caps => capsWord
  | .ctrl => ctrlWord s
  | .status => statusWord s
  | .cmd => s.cmd
  | .result => s.result
  | .slots => slotsWord s
  | .slotcfg => slotcfgWord s
  | .srcAddr => s.srcAddr
  | .srcStride => s.srcStride
  | .dstAddr => s.dstAddr
  | .dstStride => s.dstStride
  | .width => s.width.setWidth 32
  | .height => s.height.setWidth 32
  | .outw => s.outw
  | .outh => s.outh
  | .opa => s.opa
  | .opb => s.opb
  | .opc => s.opc
  | .opd => s.opd
  | .win k => s.win[k]
  | .p0 => s.p0
  | .p1 => s.p1
  | .p2 => s.p2
  | .p3 => s.p3

/-- A host write of a register other than CMD (10_state R24, R25, R30 to R38): a write to a read-only register is ignored (R43).
A write to CMD is a command request and is no plain store (R26): `hostWrite` handles it. -/
def storeReg (r : Reg) (v : Word) (s : State) : State :=
  match r with
  | .id => s
  | .caps => s
  | .ctrl => writeCtrl v s
  | .status => writeStatus v s
  | .cmd => s
  | .result => s
  | .slots => s
  | .slotcfg => s
  | .srcAddr => { s with srcAddr := v }
  | .srcStride => { s with srcStride := v }
  | .dstAddr => { s with dstAddr := v }
  | .dstStride => { s with dstStride := v }
  | .width => { s with width := v.setWidth 16 }
  | .height => { s with height := v.setWidth 16 }
  | .outw => s
  | .outh => s
  | .opa => { s with opa := v }
  | .opb => { s with opb := v }
  | .opc => { s with opc := v }
  | .opd => { s with opd := v }
  | .win k => { s with win := s.win.set k v }
  | .p0 => s
  | .p1 => s
  | .p2 => s
  | .p3 => s

end Sys2Proof.Machine
end

