-- ==== Sys2Proof/Machine/Operands.lean ====
section
/-! DEFINITION. Operand forms: format codes, pixel operands, masks, windows held in registers, and the checks a command makes
before it runs (00_scope R11; 30_encoding R93, R95, R100; 40_blend R111; 41_classifier R130). -/

namespace Sys2Proof.Machine

/-- The format a FMT code names; codes 0 and 3 name none (30_encoding R93). -/
def formatOf : Nat → Option Format
  | 1 => some .xrgb8888
  | 2 => some .rgb565
  | _ => none

/-- `esz(fmt)`, the element size in bytes (00_scope R11). -/
def esz : Format → Nat
  | .xrgb8888 => 4
  | .rgb565 => 2

/-- `px(fmt, v)`: the element in the low bits of a register (00_scope R11), zero-extended to a word (log 19). -/
def px : Format → Word → Word
  | .xrgb8888, v => v
  | .rgb565, v => (v.setWidth 16).setWidth 32

/-- H2, all but the lowest bit of every channel (40_blend R111). -/
def maskH2 : Format → Word
  | .xrgb8888 => 0xFEFEFEFE#32
  | .rgb565 => 0xF7DE#32

/-- L2, the lowest bit of every channel (40_blend R111). -/
def maskL2 : Format → Word
  | .xrgb8888 => 0x01010101#32
  | .rgb565 => 0x0821#32

/-- H4, all but the lowest two bits of every channel (40_blend R111). -/
def maskH4 : Format → Word
  | .xrgb8888 => 0xFCFCFCFC#32
  | .rgb565 => 0xE79C#32

/-- L4, the lowest two bits of every channel (40_blend R111). -/
def maskL4 : Format → Word
  | .xrgb8888 => 0x03030303#32
  | .rgb565 => 0x1863#32

/-- The window whose element at row offset dy and column offset dx is `w dy dx` (41_classifier R130). -/
def windowOf (w : Int → Int → Word) : Window where
  i := w (-1) (-1)
  e := w (-1) 0
  f := w (-1) 1
  j := w (-1) 2
  g := w 0 (-1)
  a := w 0 0
  b := w 0 1
  k := w 0 2
  h := w 1 (-1)
  c := w 1 0
  d := w 1 1
  l := w 1 2
  m := w 2 (-1)
  n := w 2 0
  o := w 2 1
  p := w 2 2

/-- The WIN register that holds W[dy][dx]: k = 4·(dy+1) + (dx+1) (10_state R38). -/
def winIndex (dy dx : Int) : Nat := (4 * (dy + 1) + (dx + 1)).toNat

/-- The window held in WIN0 to WIN15, read by CLASSIFY and BLOCK (41_classifier R130). -/
def regWindow (fmt : Format) (s : State) : Window :=
  windowOf fun dy dx => px fmt (s.win[winIndex dy dx]?.getD 0#32)

/-- A command with a FMT field: E_CONFIG for a code that names no format (30_encoding R93), else its effect, then completion. -/
def withFormat (fmt : Nat) (s : State) (effect : Format → State) : Host.Outcome State Fault Refusal :=
  match formatOf fmt with
  | none => .next (fail .eConfig s)
  | some f => .next (complete .eNone (effect f))

/-- A command with a SLOT field: E_NOSLOT for a slot out of range or not live (30_encoding R95), else its continuation. -/
def withSlot (slot : Nat) (s : State) (k : Inst → State) : Host.Outcome State Fault Refusal :=
  match instAt s slot with
  | none => .next (fail .eNoslot s)
  | some inst => .next (k inst)

end Sys2Proof.Machine
end

