-- ==== Sys2Proof/Machine/Blend.lean ====
section
/-! DEFINITION. The interpolation primitives and the commands BLEND2 and BLEND4 (40_blend). -/

namespace Sys2Proof.Machine

/-- `blend2(fmt, a, b)` (40_blend R112). -/
def blend2 (fmt : Format) (a b : Word) : Word :=
  ((a &&& maskH2 fmt) >>> 1) + ((b &&& maskH2 fmt) >>> 1) + (a &&& b &&& maskL2 fmt)

/-- `blend4(fmt, a, b, c, d)` (40_blend R113). -/
def blend4 (fmt : Format) (a b c d : Word) : Word :=
  let hi := ((a &&& maskH4 fmt) >>> 2) + ((b &&& maskH4 fmt) >>> 2) + ((c &&& maskH4 fmt) >>> 2) + ((d &&& maskH4 fmt) >>> 2)
  let lo := (((a &&& maskL4 fmt) + (b &&& maskL4 fmt) + (c &&& maskL4 fmt) + (d &&& maskL4 fmt)) >>> 2) &&& maskL4 fmt
  hi + lo

/-- BLEND2 (40_blend R117, 30_encoding R97). It writes RESULT, which the list of RESULT's writers in 10_state R27 omits (DEDUCED, log 26). -/
def execBlend2 (fmt : Nat) (s : State) : Host.Outcome State Fault Refusal :=
  withFormat fmt s fun f => { s with result := blend2 f (px f s.opa) (px f s.opb) }

/-- BLEND4 (40_blend R118, 30_encoding R97). It writes RESULT, which the list of RESULT's writers in 10_state R27 omits (DEDUCED, log 26). -/
def execBlend4 (fmt : Nat) (s : State) : Host.Outcome State Fault Refusal :=
  withFormat fmt s fun f => { s with result := blend4 f (px f s.opa) (px f s.opb) (px f s.opc) (px f s.opd) }

end Sys2Proof.Machine
end

