-- ==== Sys2Proof/Machine/Classifier.lean ====
section
/-! DEFINITION. The neighbourhood classifier and the commands CMP and CLASSIFY (41_classifier). -/

namespace Sys2Proof.Machine

/-- `[cond]`: 1 if the condition holds, 0 otherwise (00_scope R7). -/
def indicator (p : Prop) [Decidable p] : Int := if p then 1 else 0

/-- `compare(w, x, y, z)` on whole elements (41_classifier R131, R132). -/
def comparePx (w x y z : Word) : Int := indicator (w ≠ y ∨ w ≠ z) - indicator (x ≠ y ∨ x ≠ z)

/-- `vote(W)` (41_classifier R134). -/
def vote (w : Window) : Int :=
  comparePx w.a w.b w.g w.h + comparePx w.a w.b w.k w.l + comparePx w.a w.b w.e w.f + comparePx w.a w.b w.i w.j

/-- `case(W)` (41_classifier R136). -/
def caseOf (w : Window) : Case :=
  if decide (w.a = w.b) ≠ decide (w.a = w.c) then .edge
  else if w.a = w.d ∧ w.b = w.c ∧ w.a ≠ w.b then .diag
  else .generic

/-- The number of a case in RESULT[1:0] (41_classifier R138). -/
def Case.code : Case → BitVec 2
  | .edge => 1#2
  | .diag => 2#2
  | .generic => 3#2

/-- CMP: RESULT is the comparison, sign-extended (41_classifier R133). -/
def execCmp (fmt : Nat) (s : State) : Host.Outcome State Fault Refusal :=
  withFormat fmt s fun f =>
    { s with result := (BitVec.ofInt 2 (comparePx (px f s.opa) (px f s.opb) (px f s.opc) (px f s.opd))).signExtend 32 }

/-- CLASSIFY: RESULT[11:8] is the vote, RESULT[1:0] the case, its other bits 0 (41_classifier R138). -/
def execClassify (fmt : Nat) (s : State) : Host.Outcome State Fault Refusal :=
  withFormat fmt s fun f =>
    { s with result := (BitVec.ofInt 4 (vote (regWindow f s)) ++ 0#6 ++ (caseOf (regWindow f s)).code).setWidth 32 }

end Sys2Proof.Machine
end

