-- ==== Sys2Proof/Machine/Kernels.lean ====
section
/-! DEFINITION. The filter kernels A and B and the command BLOCK (42_kernels). -/

namespace Sys2Proof.Machine

/-- Step 1, EDGE: all four elements are A (42_kernels R152). -/
def kernelEdge (w : Window) : Block := ⟨w.a, w.a, w.a, w.a⟩

/-- p11 of a DIAG window: the vote picks A or B; a tie falls back to each kernel's own blend (42_kernels R153 to R155). -/
def diagCorner (desc : Desc) (fmt : Format) (w : Window) : Word :=
  if vote w > 0 then w.a
  else if vote w < 0 then w.b
  else
    match desc with
    | .a => blend2 fmt w.a w.b
    | .b => blend4 fmt w.a w.a w.a w.b

/-- Step 2, DIAG (42_kernels R153). -/
def kernelDiag (desc : Desc) (fmt : Format) (w : Window) : Block where
  p00 := w.a
  p01 := blend2 fmt w.a w.b
  p10 := blend2 fmt w.a w.c
  p11 := diagCorner desc fmt w

/-- a01, the A-evidence across the A|B boundary (42_kernels R157). -/
def evidenceA01 (w : Window) : Int := indicator (w.a = w.f) + indicator (w.a = w.d)

/-- b01, the B-evidence across the A|B boundary (42_kernels R157). -/
def evidenceB01 (w : Window) : Int := indicator (w.b = w.e) + indicator (w.b = w.c)

/-- a10, the A-evidence across the A|C boundary (42_kernels R157). -/
def evidenceA10 (w : Window) : Int := indicator (w.a = w.h) + indicator (w.a = w.d)

/-- c10, the C-evidence across the A|C boundary (42_kernels R157). -/
def evidenceC10 (w : Window) : Int := indicator (w.c = w.g) + indicator (w.c = w.b)

/-- p01 of a GENERIC window (42_kernels R158, R159). -/
def genericP01 (desc : Desc) (fmt : Format) (w : Window) : Word :=
  match desc with
  | .a =>
    if evidenceA01 w > evidenceB01 w ∧ w.b ≠ w.k then w.a
    else if evidenceB01 w > evidenceA01 w ∧ w.a ≠ w.g then w.b
    else blend2 fmt w.a w.b
  | .b =>
    if evidenceA01 w = 2 then w.a
    else if evidenceB01 w = 2 then w.b
    else blend2 fmt w.a w.b

/-- p10 of a GENERIC window (42_kernels R158, R159). -/
def genericP10 (desc : Desc) (fmt : Format) (w : Window) : Word :=
  match desc with
  | .a =>
    if evidenceA10 w > evidenceC10 w ∧ w.c ≠ w.n then w.a
    else if evidenceC10 w > evidenceA10 w ∧ w.a ≠ w.e then w.c
    else blend2 fmt w.a w.c
  | .b =>
    if evidenceA10 w = 2 then w.a
    else if evidenceC10 w = 2 then w.c
    else blend2 fmt w.a w.c

/-- p11 of a GENERIC window, both kernels (42_kernels R156). -/
def genericP11 (fmt : Format) (w : Window) : Word :=
  if w.a = w.d then w.a
  else if w.b = w.c then w.b
  else blend2 fmt w.a w.d

/-- Step 3, GENERIC (42_kernels R156 to R159). -/
def kernelGeneric (desc : Desc) (fmt : Format) (w : Window) : Block where
  p00 := w.a
  p01 := genericP01 desc fmt w
  p10 := genericP10 desc fmt w
  p11 := genericP11 fmt w

/-- `kernel(desc, fmt, W)` (42_kernels R151). -/
def kernel (desc : Desc) (fmt : Format) (w : Window) : Block :=
  match caseOf w with
  | .edge => kernelEdge w
  | .diag => kernelDiag desc fmt w
  | .generic => kernelGeneric desc fmt w

/-- P0 to P3 set from a block (42_kernels R160). -/
def setBlock (b : Block) (s : State) : State := { s with p0 := b.p00, p1 := b.p01, p2 := b.p10, p3 := b.p11 }

/-- BLOCK: one kernel on the window in WIN0 to WIN15 (42_kernels R160). -/
def execBlock (desc : Desc) (fmt : Nat) (s : State) : Host.Outcome State Fault Refusal :=
  withFormat fmt s fun f => setBlock (kernel desc f (regWindow f s)) s

end Sys2Proof.Machine
end

