-- ==== Sys2Proof/Machine/Registry.lean ====
section
/-! DEFINITION. The registry commands NOP, QINFMT, QOUTFMT, CREATE, DESTROY, OUTSIZE and FIRSTPASS (43_registry). -/

namespace Sys2Proof.Machine

/-- NOP completes with E_NONE (43_registry R180). -/
def execNop (s : State) : Host.Outcome State Fault Refusal := .next (complete .eNone s)

/-- QINFMT: RESULT is FMT_MASK (43_registry R181). -/
def execQinfmt (s : State) : Host.Outcome State Fault Refusal :=
  .next (complete .eNone { s with result := fmtMask.setWidth 32 })

/-- QOUTFMT: RESULT is OPA restricted to FMT_MASK (43_registry R182). -/
def execQoutfmt (s : State) : Host.Outcome State Fault Refusal :=
  .next (complete .eNone { s with result := s.opa &&& fmtMask.setWidth 32 })

/-- CREATE: E_CONFIG, then E_NOMEM, else the least free slot becomes live and RESULT is its number (43_registry R183, R184). -/
def execCreate (desc : Desc) (fmt : Nat) (s : State) : Host.Outcome State Fault Refusal :=
  match formatOf fmt with
  | none => .next (failCreate .eConfig s)
  | some f =>
    match firstFree s with
    | none => .next (failCreate .eNomem s)
    | some i => .next (complete .eNone { setSlot i (some ⟨f, desc⟩) s with result := BitVec.ofNat 32 i })

/-- DESTROY frees a live slot (43_registry R185). -/
def execDestroy (slot : Nat) (s : State) : Host.Outcome State Fault Refusal :=
  withSlot slot s fun _ => complete .eNone (setSlot slot none s)

/-- OUTSIZE: E_NOSLOT, then E_SIZE, else OUTW and OUTH are twice WIDTH and HEIGHT (43_registry R186). -/
def execOutsize (slot : Nat) (s : State) : Host.Outcome State Fault Refusal :=
  withSlot slot s fun _ =>
    if s.width = 0#16 ∨ s.height = 0#16 then fail .eSize s
    else complete .eNone { s with outw := 2#32 * s.width.setWidth 32, outh := 2#32 * s.height.setWidth 32 }

/-- FIRSTPASS only checks its slot (43_registry R187). -/
def execFirstpass (slot : Nat) (s : State) : Host.Outcome State Fault Refusal :=
  withSlot slot s fun _ => complete .eNone s

end Sys2Proof.Machine
end

