-- ==== Sys2Proof/Machine/Render.lean ====
section
/-! DEFINITION. The command RENDER: its checks, what it latches, and what the engine computes and touches (44_render R200 to R212;
20_memory R65 to R76). -/

namespace Sys2Proof.Machine

/-- `ea(base, s, fmt, x, y)`, computed on integers and reduced modulo 2^32 (20_memory R67). -/
def elemAddr (base stride : Word) (fmt : Format) (x y : Int) : Addr :=
  BitVec.ofInt 32 (base.toNat + y * stride.toNat + x * esz fmt)

/-- `clamp(v, lo, hi)` (44_render R205). -/
def clampInt (v lo hi : Int) : Int := min (max v lo) hi

/-- The source address a coordinate is fetched from: clamped into the raster, or as computed (44_render R205, R206). -/
def Job.fetchAddr (j : Job) (x y : Int) : Addr :=
  if j.clamp then elemAddr j.src j.sstride j.fmt (clampInt x 0 (j.w.toNat - 1)) (clampInt y 0 (j.h.toNat - 1))
  else elemAddr j.src j.sstride j.fmt x y

/-- `fetch(i, j)`, read from S0, memory at acceptance (44_render R205 to R207). -/
def Job.fetch (j : Job) (x y : Int) : Word := j.s0.readElem (esz j.fmt) (j.fetchAddr x y)

/-- `W(x, y)` (44_render R204). -/
def Job.window (j : Job) (x y : Nat) : Window := windowOf fun dy dx => j.fetch (x + dx) (y + dy)

/-- The four elements of the destination block of a source coordinate (44_render R204). -/
def Job.block (j : Job) (x y : Nat) : Block := kernel j.desc j.fmt (j.window x y)

/-- The address of destination element (X, Y) (44_render R208). -/
def Job.destAddr (j : Job) (x y : Nat) : Addr := elemAddr j.dst j.dstride j.fmt x y

/-- The destination block of a source coordinate: each element's address and value (44_render R204, 42_kernels R150). -/
def Job.blockElems (j : Job) (c : Nat × Nat) : List (Addr × Word) :=
  [(j.destAddr (2 * c.1) (2 * c.2), (j.block c.1 c.2).p00),
   (j.destAddr (2 * c.1 + 1) (2 * c.2), (j.block c.1 c.2).p01),
   (j.destAddr (2 * c.1) (2 * c.2 + 1), (j.block c.1 c.2).p10),
   (j.destAddr (2 * c.1 + 1) (2 * c.2 + 1), (j.block c.1 c.2).p11)]

/-- Memory with one destination block written, four whole elements (44_render R204, R210). -/
def Job.writeBlock (j : Job) (m : Memory) (c : Nat × Nat) : Memory :=
  (j.blockElems c).foldl (fun m e => m.writeElem (esz j.fmt) e.1 e.2) m

/-- The source coordinates of the raster in row-major order (44_render R204). -/
def Job.coords (j : Job) : List (Nat × Nat) :=
  (List.range j.h.toNat).flatMap fun y => (List.range j.w.toNat).map fun x => (x, y)

/-- The (dy, dx) a kernel reads: rows -1 to +1 of the window, and N for kernel A (41_classifier R139). -/
def readOffsets (desc : Desc) : List (Int × Int) :=
  match desc with
  | .a =>
    [(-1, -1), (-1, 0), (-1, 1), (-1, 2), (0, -1), (0, 0), (0, 1), (0, 2), (1, -1), (1, 0), (1, 1), (1, 2), (2, 0)]
  | .b => [(-1, -1), (-1, 0), (-1, 1), (-1, 2), (0, -1), (0, 0), (0, 1), (0, 2), (1, -1), (1, 0), (1, 1), (1, 2)]

/-- The element addresses the engine reads for one coordinate (44_render R209). -/
def Job.readsOf (j : Job) (c : Nat × Nat) : List Addr :=
  (readOffsets j.desc).map fun o => j.fetchAddr (c.1 + o.2) (c.2 + o.1)

/-- The element addresses the engine writes for one coordinate (44_render R208). -/
def Job.writesOf (j : Job) (c : Nat × Nat) : List Addr :=
  [j.destAddr (2 * c.1) (2 * c.2), j.destAddr (2 * c.1 + 1) (2 * c.2),
   j.destAddr (2 * c.1) (2 * c.2 + 1), j.destAddr (2 * c.1 + 1) (2 * c.2 + 1)]

/-- `Rset`, byte by byte (44_render R209). -/
def Job.rsetBytes (j : Job) : List Addr := (j.coords.flatMap j.readsOf).flatMap (elemBytes (esz j.fmt))

/-- `Dset`, byte by byte (44_render R208). -/
def Job.dsetBytes (j : Job) : List Addr := (j.coords.flatMap j.writesOf).flatMap (elemBytes (esz j.fmt))

/-- The destination shares a byte with the read set, or with itself: condition 1 or 2 of 44_render R212 fails. -/
def Job.overlaps (j : Job) : Bool :=
  j.dsetBytes.any (fun a => decide (a ∈ j.rsetBytes)) || !decide j.dsetBytes.Nodup

/-- The RENDER touches memory whose reads have side effects (20_memory R70; log 20). -/
def Job.overSideEffects (j : Job) (platform : List Region) : Bool :=
  (j.rsetBytes ++ j.dsetBytes).any (inRegion platform .sideEffects)

/-- The destination holds any value at completion: a condition of 44_render R212 fails, or 20_memory R70 applies. -/
def Job.anyValue (j : Job) (platform : List Region) : Bool :=
  j.disturbed || j.overlaps || j.overSideEffects platform

/-- The platform refuses an access that the block of a coordinate needs (20_memory R72). -/
def Job.refusedAt (j : Job) (platform : List Region) (c : Nat × Nat) : Bool :=
  ((j.readsOf c ++ j.writesOf c).flatMap (elemBytes (esz j.fmt))).any (inRegion platform .refused)

/-- The final contents of memory if nothing disturbs the RENDER: every block written over S0 (44_render R204). -/
def Job.finalMem (j : Job) : Memory := j.coords.foldl j.writeBlock j.s0

/-- SRC_ADDR, DST_ADDR, SRC_STRIDE or DST_STRIDE is no multiple of the element size: E_ALIGN (44_render R202 item 2). -/
def misaligned (e : Nat) (s : State) : Bool :=
  decide (s.srcAddr.toNat % e ≠ 0) || decide (s.dstAddr.toNat % e ≠ 0) ||
    decide (s.srcStride.toNat % e ≠ 0) || decide (s.dstStride.toNat % e ≠ 0)

/-- SRC_STRIDE or DST_STRIDE is too small for its row: E_SIZE (44_render R202 item 3). -/
def strideTooSmall (e : Nat) (s : State) : Bool :=
  decide (s.srcStride.toNat < s.width.toNat * e) || decide (s.dstStride.toNat < 2 * s.width.toNat * e)

/-- The error code of the first check that fails, none if every check passes (44_render R202, 60_exceptions R234). -/
def renderCheck (fmt : Format) (s : State) : Option Err :=
  if s.width = 0#16 ∨ s.height = 0#16 then some .eSize
  else if misaligned (esz fmt) s then some .eAlign
  else if strideTooSmall (esz fmt) s then some .eSize
  else none

/-- What an accepted RENDER latches (44_render R203). -/
def latch (inst : Inst) (s : State) : Job where
  src := s.srcAddr
  sstride := s.srcStride
  dst := s.dstAddr
  dstride := s.dstStride
  w := s.width
  h := s.height
  fmt := inst.fmt
  desc := inst.desc
  clamp := s.ctrlClamp
  s0 := s.mem
  done := []
  disturbed := false
  stuck := false

/-- The engine takes up an accepted RENDER: BUSY becomes 1 (44_render R203). -/
def startEngine (inst : Inst) (s : State) : State := { s with engine := some (latch inst s) }

/-- RENDER, the acceptance part (44_render R200 to R203). The engine part is `engineStep`. -/
def execRender (slot : Nat) (s : State) : Host.Outcome State Fault Refusal :=
  withSlot slot s fun inst =>
    match renderCheck inst.fmt s with
    | some err => fail err s
    | none => startEngine inst s

end Sys2Proof.Machine
end

