-- ==== Sys2Proof/Machine/Dispatch.lean ====
section
/-! DEFINITION. The meaning of each command (30_encoding R97), run on the state after acceptance (60_exceptions R233). -/

namespace Sys2Proof.Machine

def exec (i : Instr) (s : State) : Host.Outcome State Fault Refusal :=
  match i with
  | .nop => Sys2Proof.Machine.execNop s
  | .qinfmt => Sys2Proof.Machine.execQinfmt s
  | .qoutfmt => Sys2Proof.Machine.execQoutfmt s
  | .create desc fmt => Sys2Proof.Machine.execCreate desc fmt s
  | .destroy slot => Sys2Proof.Machine.execDestroy slot s
  | .outsize slot => Sys2Proof.Machine.execOutsize slot s
  | .firstpass slot => Sys2Proof.Machine.execFirstpass slot s
  | .render slot => Sys2Proof.Machine.execRender slot s
  | .blend2 fmt => Sys2Proof.Machine.execBlend2 fmt s
  | .blend4 fmt => Sys2Proof.Machine.execBlend4 fmt s
  | .cmp fmt => Sys2Proof.Machine.execCmp fmt s
  | .classify fmt => Sys2Proof.Machine.execClassify fmt s
  | .block desc fmt => Sys2Proof.Machine.execBlock desc fmt s

end Sys2Proof.Machine
end

