-- ==== Sys2Proof/Machine/Engine.lean ====
section
/-! DEFINITION. The engine steps of an accepted RENDER, the host's memory accesses beside them, and reset (44_render R204, R211,
R212, R215; 20_memory R72 to R76; 70_reset_and_hazards R260 to R263). -/

namespace Sys2Proof.Machine

/-- Row-major order of source coordinates. -/
def blockBefore (p q : Nat × Nat) : Bool := decide (p.2 < q.2) || (decide (p.2 = q.2) && decide (p.1 < q.1))

/-- A coordinate added to done_blocks, kept in row-major order. -/
def insertBlock (p : Nat × Nat) : List (Nat × Nat) → List (Nat × Nat)
  | [] => [p]
  | q :: qs => if blockBefore p q then p :: q :: qs else q :: insertBlock p qs

/-- The coordinates not in done_blocks (44_render R215). -/
def Job.remaining (j : Job) : List (Nat × Nat) := j.coords.filter fun c => decide (c ∉ j.done)

/-- The coordinate an engine step takes: any one of those that remain, named by a number (44_render R215; log 3). -/
def pickBlock (k : Nat) (first : Nat × Nat) (rest : List (Nat × Nat)) : Nat × Nat :=
  (first :: rest).getD (k % (rest.length + 1)) first

/-- One block: the engine writes its four elements and adds it to done_blocks (44_render R215), or is stuck for good when the
platform refuses an access it needs (20_memory R72; log 8). -/
def engineBlock (j : Job) (c : Nat × Nat) (s : State) : State :=
  if j.refusedAt s.platform c then { s with engine := some { j with stuck := true } }
  else { s with mem := j.writeBlock s.mem c, engine := some { j with done := insertBlock c j.done } }

/-- The memory a completed RENDER leaves: as written, or any value in the destination (44_render R204, R212). -/
def finishMem (j : Job) (s : State) : Memory :=
  if j.anyValue s.platform then s.mem.anyValue s.draws j.dsetBytes else s.mem

/-- Completion of a RENDER: BUSY = 0, DONE = 1, ERR = 0 (44_render R211). -/
def engineFinish (j : Job) (s : State) : State := complete .eNone { s with mem := finishMem j s }

/-- An engine step (44_render R215), on the block a choice names, or on one drawn freely. Without a RENDER in progress there is
none (60_exceptions R243), and a stuck RENDER gets no further step (20_memory R72). -/
def engineStep (choice : Option Nat) (s : State) : State :=
  match s.engine with
  | none => s
  | some j =>
    if j.stuck then s
    else
      match j.remaining with
      | [] => { engineFinish j s with draws := s.draws + 1 }
      | c :: cs =>
        { engineBlock j (pickBlock (choice.getD (Config.freePick s.draws)) c cs) s with draws := s.draws + 1 }

/-- The byte a host read sees (20_memory R73, R75): memory, but while BUSY = 1 each destination element shows its value before
the RENDER or its final value, drawn for the whole element (R69), or any value where 44_render R212 fails (log 6). -/
def hostByte (s : State) (a : Addr) : Byte :=
  match s.engine with
  | none => s.mem.read a
  | some j =>
    if a ∈ j.dsetBytes then
      if j.anyValue s.platform then Config.freeByte s.draws a.toNat
      else if Config.freeOld s.draws (a.toNat - a.toNat % esz j.fmt) then j.s0.read a
      else j.finalMem.read a
    else s.mem.read a

/-- A host read of memory (60_exceptions R243), of 1, 2 or 4 bytes at any address, one atomic step (DESIGN CHOICE, log 27). -/
def hostMemRead (a : Addr) (size : Size) (s : State) : Host.Outcome State Fault Refusal :=
  if (elemBytes size.bytes a).any (inRegion s.platform .refused) then .fault .hostBusError
  else if (elemBytes size.bytes a).any (inRegion s.platform .sideEffects) then .refused .deviceAccess
  else .next
    { s with
      hostData := BitVec.ofNat 32 (assemble Config.endian ((elemBytes size.bytes a).map (hostByte s)))
      draws := s.draws + 1 }

/-- A RENDER in progress with a host write recorded against it: it is disturbed if the write touches its read set or its
destination (20_memory R74, R75, 44_render R212 condition 3; log 18). -/
def Job.noteWrite (j : Job) (addrs : List Addr) : Job :=
  { j with disturbed := j.disturbed || addrs.any fun a => decide (a ∈ j.rsetBytes) || decide (a ∈ j.dsetBytes) }

/-- A host write of memory (60_exceptions R243), of 1, 2 or 4 bytes at any address, one atomic step (DESIGN CHOICE, log 27). -/
def hostMemWrite (a : Addr) (size : Size) (v : Word) (s : State) : Host.Outcome State Fault Refusal :=
  if (elemBytes size.bytes a).any (inRegion s.platform .refused) then .fault .hostBusError
  else if (elemBytes size.bytes a).any (inRegion s.platform .sideEffects) then .refused .deviceAccess
  else .next
    { s with
      mem := s.mem.writeElem size.bytes a v
      engine := s.engine.map fun j => j.noteWrite (elemBytes size.bytes a) }

/-- The memory a reset leaves: reset does not access memory (70_reset_and_hazards R263), but the destination of an abandoned
RENDER holds any value (R262). -/
def resetMem (s : State) : Memory :=
  match s.engine with
  | none => s.mem
  | some j => s.mem.anyValue s.draws j.dsetBytes

/-- The reset input: every register, slot and latch takes its reset value (70_reset_and_hazards R261); the host, the platform and
the draw counter are not the block's and go on (log 21). -/
def resetStep (s : State) : State :=
  { State.reset with
    mem := resetMem s
    platform := s.platform
    script := s.script
    hostData := s.hostData
    draws := s.draws + 1 }

end Sys2Proof.Machine
end

