-- ==== Sys2Proof/Machine/Port.lean ====
section
/-! DEFINITION. The register port, the bus, the atomic steps of the agents and which of them is next (10_state R20, R44;
30_encoding R102, R103; 60_exceptions R233, R243; 70_reset_and_hazards R273). -/

namespace Sys2Proof.Machine

/-- A host write of a value to CMD, one atomic step (60_exceptions R233): dropped while BUSY = 1; else accepted, decoded, and
failed with E_ILLEGAL or executed. -/
def request (c : Word) (s : State) : Host.Outcome State Fault Refusal :=
  if s.busy then .next (dropRequest s)
  else
    match decode c with
    | .error _ => .next (fail .eIllegal (accept c s))
    | .ok i => exec i (accept c s)

/-- Only aligned 32-bit accesses of the register block are defined (10_state R44). Aligned means that the offset from REG_BASE is a
multiple of 4, REG_BASE being open (DESIGN CHOICE, log 25). -/
def definedAccess (off : BitVec 8) (size : Size) : Bool := decide (size = .word) && decide (off.toNat % 4 = 0)

/-- The value a register read at an offset returns; a reserved offset reads 0 (10_state R42). -/
def regValue (off : BitVec 8) (s : State) : Word :=
  match regAt off.toNat with
  | none => 0#32
  | some r => readReg r s

/-- A host read of the register block. It changes nothing but the data returned to the host (10_state R44; log 12). -/
def hostRead (off : BitVec 8) (size : Size) (s : State) : Host.Outcome State Fault Refusal :=
  if definedAccess off size then .next { s with hostData := regValue off s } else .refused .undefinedAccess

/-- A host write of the register block: a command request at CMD, nothing at a reserved offset, else a register store
(10_state R26, R42, R43). -/
def hostWrite (off : BitVec 8) (size : Size) (v : Word) (s : State) : Host.Outcome State Fault Refusal :=
  if definedAccess off size then
    match regAt off.toNat with
    | none => .next s
    | some .cmd => request v s
    | some r => .next (storeReg r v s)
  else .refused .undefinedAccess

/-- Whether a bus address lies in the 256 bytes at REG_BASE (10_state R20; log 14). -/
def inRegBlock (a : Addr) : Bool := decide ((a - Config.regBase).toNat < 256)

/-- The offset of a bus address in the register block. -/
def blockOffset (a : Addr) : BitVec 8 := (a - Config.regBase).setWidth 8

/-- A host read at a bus address: the register block, or memory; one that is partly in the block is no defined access (log 11). In
the block its alignment is that of the offset, not of the bus address (DESIGN CHOICE, log 25). -/
def busRead (a : Addr) (size : Size) (s : State) : Host.Outcome State Fault Refusal :=
  if inRegBlock a then hostRead (blockOffset a) size s
  else if (elemBytes size.bytes a).any inRegBlock then .refused .undefinedAccess
  else hostMemRead a size s

/-- A host write at a bus address: the register block, or memory; one that is partly in the block is no defined access (log 11). In
the block its alignment is that of the offset, not of the bus address (DESIGN CHOICE, log 25). -/
def busWrite (a : Addr) (size : Size) (v : Word) (s : State) : Host.Outcome State Fault Refusal :=
  if inRegBlock a then hostWrite (blockOffset a) size v s
  else if (elemBytes size.bytes a).any inRegBlock then .refused .undefinedAccess
  else hostMemWrite a size v s

/-- One poll of `wait_idle` (30_encoding R103): STATUS is read; while bit 0 of it is 1 the engine moves and the poll comes again, so
the loop is fair to the engine (70_reset_and_hazards R273; log 13). -/
def pollIdle (s : State) : State :=
  if (statusWord s).getLsbD 0 then
    { s with hostData := statusWord s, script := .engine none :: .waitIdle :: s.script }
  else { s with hostData := statusWord s }

/-- `check_ok` (30_encoding R103): STATUS is read and its bits [11:8] must be 0 (log 13). -/
def checkOk (s : State) : Host.Outcome State Fault Refusal :=
  if (statusWord s).extractLsb' 8 4 = 0#4 then .next { s with hostData := statusWord s } else .fault .checkFailed

/-- One atomic step (60_exceptions R243, 70_reset_and_hazards R260). -/
def act (x : Action) (s : State) : Host.Outcome State Fault Refusal :=
  match x with
  | .regRead off size => hostRead off size s
  | .regWrite off size v => hostWrite off size v s
  | .busRead a size => busRead a size s
  | .busWrite a size v => busWrite a size v s
  | .memRead a size => hostMemRead a size s
  | .memWrite a size v => hostMemWrite a size v s
  | .engine choice => .next (engineStep choice s)
  | .waitIdle => .next (pollIdle s)
  | .checkOk => checkOk s
  | .reset => .next (resetStep s)

/-- Which agent moves: the one the script names next; with nothing left in the script the engine while BUSY = 1, and else nobody,
the block holding its state (60_exceptions R249, R250; 70_reset_and_hazards R273; log 1, 9). -/
def moveNext (s : State) : Host.Outcome State Fault Refusal :=
  match s.script with
  | [] => .next (engineStep none s)
  | x :: rest => act x { s with script := rest }

/-! ### Host programs (30_encoding R102, R103) -/

/-- `wr NAME, v`. -/
def wr (r : Reg) (v : Word) : Action := .regWrite r.offset .word v

/-- `rd NAME`. -/
def rd (r : Reg) : Action := .regRead r.offset .word

/-- `mem16 a, v`. -/
def mem16 (a : Addr) (v : Word) : Action := .memWrite a .half v

/-- `mem32 a, v`. -/
def mem32 (a : Addr) (v : Word) : Action := .memWrite a .word v

/-- `cmd X`. -/
def cmd (i : Instr) : Action := wr .cmd (encode i)

/-- `ack`. -/
def ackDone : Action := wr .status 0x00000006#32

/-- The state whose next step is a host write of a word to CMD: the engine idle, the write first in the script (log 2). -/
def placeCommand (c : Word) (s : State) : State := { s with engine := none, script := wr .cmd c :: s.script }

end Sys2Proof.Machine
end

