-- ==== Sys2Proof/Machine/Step.lean ====
section
/-! DEFINITION. One step of the machine, and how a command is placed so that it is the next to run (log 1, 2). -/

namespace Sys2Proof.Machine

/-- One atomic step of the agent that moves next (60_exceptions R243). -/
def step (s : State) : Host.Outcome State Fault Refusal := moveNext s

/-- `s` with a command word placed where the next step takes it: the host's next action is its write to CMD, and the engine is
idle, since a request during BUSY is dropped (60_exceptions R233). The block fetches nothing (10_state R46). -/
def State.withFetchWord (s : State) (_nbits w : Nat) : State := placeCommand (BitVec.ofNat 32 w) s

end Sys2Proof.Machine
end

