-- ==== Sys2Proof/Safety.lean ====
section
/-! DEFINITION. The terms claims are stated in: what a completed command leaves, the invariant of the machine, and when a RENDER is
undisturbed. -/

namespace Sys2Proof.Machine

/-- Every register outside a list reads as before. -/
def SameRegsExcept (changed : List Reg) (s t : State) : Prop := ∀ r, r ∉ changed → readReg r t = readReg r s

/-- Every byte of memory reads as before. -/
def SameMemory (s t : State) : Prop := ∀ a : Addr, t.mem.read a = s.mem.read a

/-- What is not the block's (the platform's map, the script, the data last returned, the draw counter) is as before. -/
def SameSurroundings (s t : State) : Prop :=
  t.platform = s.platform ∧ t.script = s.script ∧ t.hostData = s.hostData ∧ t.draws = s.draws

/-- A command has completed with an error code (60_exceptions R231): ERR, DONE = 1, BUSY = 0, OVR as before. -/
def CompletedWith (err : Err) (s t : State) : Prop :=
  t.statusErr = err ∧ t.statusDone = true ∧ t.busy = false ∧ t.statusOvr = s.statusOvr

/-- A command completed with a code and changed, beside STATUS, nothing but the registers of a list; memory, surroundings and, unless
SLOTS is in the list, every instance slot are as before (60_exceptions R231). -/
def CommandEffect (changed : List Reg) (err : Err) (s t : State) : Prop :=
  CompletedWith err s t ∧ SameRegsExcept (.status :: changed) s t ∧ (.slots ∉ changed → t.slots = s.slots) ∧
    SameMemory s t ∧ SameSurroundings s t

/-- The bits of the command word that a command's opcode uses, reserved bits apart (30_encoding R91, R97). -/
def usedBits : Instr → Word
  | .nop => 0x000000FF#32
  | .qinfmt => 0x000000FF#32
  | .qoutfmt => 0x000000FF#32
  | .create _ _ => 0x000310FF#32
  | .destroy _ => 0x00000FFF#32
  | .outsize _ => 0x00000FFF#32
  | .firstpass _ => 0x00000FFF#32
  | .render _ => 0x00000FFF#32
  | .blend2 _ => 0x000300FF#32
  | .blend4 _ => 0x000300FF#32
  | .cmp _ => 0x000300FF#32
  | .classify _ => 0x000300FF#32
  | .block _ _ => 0x000310FF#32

/-- The opcodes of 30_encoding R97. -/
def assignedOps : List Nat := [0x00, 0x01, 0x02, 0x03, 0x04, 0x05, 0x06, 0x07, 0x10, 0x11, 0x12, 0x13, 0x14]

/-- The channel fields of a format, each by its lowest bit and its width (20_memory R63, R64; 40_blend R114). -/
def channels : Format → List (Nat × Nat)
  | .xrgb8888 => [(0, 8), (8, 8), (16, 8), (24, 8)]
  | .rgb565 => [(0, 5), (5, 6), (11, 5)]

/-- The value of a channel field of an element. -/
def channel (v : Word) (ch : Nat × Nat) : Nat := v.toNat / 2 ^ ch.1 % 2 ^ ch.2

/-- A word is an element of a format: it fits the element width (00_scope R11). -/
abbrev IsElement (fmt : Format) (v : Word) : Prop := px fmt v = v

/-- A window with every element replaced through a function. -/
def Window.map (g : Word → Word) (w : Window) : Window where
  i := g w.i
  e := g w.e
  f := g w.f
  j := g w.j
  g := g w.g
  a := g w.a
  b := g w.b
  k := g w.k
  h := g w.h
  c := g w.c
  d := g w.d
  l := g w.l
  m := g w.m
  n := g w.n
  o := g w.o
  p := g w.p

/-- The window that WIN0 to WIN15 hold, in the order of 10_state R38: I E F J, G A B K, H C D L, M N O P, each read as an element. -/
def winWindow (fmt : Format) (s : State) : Window where
  i := px fmt (readReg (.win 0) s)
  e := px fmt (readReg (.win 1) s)
  f := px fmt (readReg (.win 2) s)
  j := px fmt (readReg (.win 3) s)
  g := px fmt (readReg (.win 4) s)
  a := px fmt (readReg (.win 5) s)
  b := px fmt (readReg (.win 6) s)
  k := px fmt (readReg (.win 7) s)
  h := px fmt (readReg (.win 8) s)
  c := px fmt (readReg (.win 9) s)
  d := px fmt (readReg (.win 10) s)
  l := px fmt (readReg (.win 11) s)
  m := px fmt (readReg (.win 12) s)
  n := px fmt (readReg (.win 13) s)
  o := px fmt (readReg (.win 14) s)
  p := px fmt (readReg (.win 15) s)

/-- The size of a host access that reads one element of a format. -/
def elemSize : Format → Size
  | .xrgb8888 => .word
  | .rgb565 => .half

/-- The next state of an outcome carried through a function. -/
def mapNext (g : State → State) : Host.Outcome State Fault Refusal → Host.Outcome State Fault Refusal
  | .next s => .next (g s)
  | .fault r => .fault r
  | .refused r => .refused r

/-- What holds of a RENDER from its acceptance on (44_render R202, R203, R215): S0 in canonical form, a positive size, aligned
addresses and strides that keep the rows apart, and done_blocks a set of coordinates of the raster. -/
structure Job.Coherent (j : Job) : Prop where
  s0_wf : j.s0.wf = true
  width_pos : j.w ≠ 0#16
  height_pos : j.h ≠ 0#16
  src_aligned : j.src.toNat % esz j.fmt = 0
  dst_aligned : j.dst.toNat % esz j.fmt = 0
  sstride_aligned : j.sstride.toNat % esz j.fmt = 0
  dstride_aligned : j.dstride.toNat % esz j.fmt = 0
  sstride_large : j.w.toNat * esz j.fmt ≤ j.sstride.toNat
  dstride_large : 2 * j.w.toNat * esz j.fmt ≤ j.dstride.toNat
  done_sorted : j.done.Pairwise fun p q => blockBefore p q = true
  done_inside : ∀ c ∈ j.done, c.1 < j.w.toNat ∧ c.2 < j.h.toNat

/-- The invariant of every step: memory in canonical form, and while a RENDER runs it is coherent, DONE is 0 and ERR is 0
(10_state R25). -/
def Inv (s : State) : Prop :=
  s.mem.wf = true ∧ ∀ j, s.engine = some j → j.Coherent ∧ s.statusDone = false ∧ s.statusErr = .eNone

/-- The bytes of the destination blocks in done_blocks. -/
def Job.doneBytes (j : Job) : List Addr := (j.done.flatMap j.writesOf).flatMap (elemBytes (esz j.fmt))

/-- How far a RENDER whose result is defined has come: destination bytes of finished blocks hold their final value, the other ones
their value at acceptance (44_render R204, R215). -/
def RenderProgress (s : State) : Prop :=
  ∀ j, s.engine = some j → j.anyValue s.platform = false →
    ∀ a ∈ j.dsetBytes, s.mem.read a = if a ∈ j.doneBytes then j.finalMem.read a else j.s0.read a

/-- The platform serves every access of a RENDER (20_memory R72). -/
def Job.Served (j : Job) (platform : List Region) : Prop := ∀ c ∈ j.coords, j.refusedAt platform c = false

/-- A RENDER is in progress and the platform refuses an access that one of its blocks not yet done needs (20_memory R72). -/
def Blocked (s : State) : Prop :=
  ∃ j, s.engine = some j ∧ ∃ c ∈ j.coords, c ∉ j.done ∧ j.refusedAt s.platform c = true

/-- A RENDER at its acceptance in a state: nothing done, memory as latched (44_render R203). -/
def JustAccepted (j : Job) (s : State) : Prop :=
  s.engine = some j ∧ j.done = [] ∧ j.stuck = false ∧ j.s0 = s.mem

end Sys2Proof.Machine
end

