-- ==== Sys2Proof/Certificates/Slice0/Obligations.lean ====
section
/-! DEFINITION. What is claimed of the model, from the numbered rules of spec/. -/

open Sys2Proof Sys2Proof.Machine

/-! ### Encoding -/

/-- 30_encoding R91, R97, R99: decoding the word of a well-formed command gives the command back, every field at every value. -/
def Obligations.DecodeOfEncodeIsTheCommand : Prop :=
  ∀ i : Instr, i.wf = true → decode (encode i) = .ok i

/-- 30_encoding R91, R96, R97: a word that decodes has its opcode and its used fields, and no other bit, in the command's own word. -/
def Obligations.DecodedWordIsTheCommandOnItsUsedBits : Prop :=
  ∀ (c : Word) (i : Instr), decode c = .ok i → i.wf = true ∧ encode i = c &&& usedBits i

/-- 30_encoding R92, R98, R99: a word is illegal exactly when a reserved bit is 1 or OP is not in the table. -/
def Obligations.IllegalWordsAreReservedBitsOrUnassignedOps : Prop :=
  ∀ c : Word, (∃ e, decode c = .error e) ↔ (c &&& 0xFFFCE000#32 ≠ 0#32 ∨ (c &&& 0xFF#32).toNat ∉ assignedOps)

/-- 30_encoding R101: the example words of the assembler syntax decode to the commands they stand for. -/
def Obligations.ExampleWordsDecodeToTheirCommands : Prop :=
  decode 0x00000000#32 = .ok .nop ∧ decode 0x00000001#32 = .ok .qinfmt ∧ decode 0x00000002#32 = .ok .qoutfmt ∧
    decode 0x00010003#32 = .ok (.create .a 1) ∧ decode 0x00021003#32 = .ok (.create .b 2) ∧
    decode 0x00000104#32 = .ok (.destroy 1) ∧ decode 0x00000005#32 = .ok (.outsize 0) ∧
    decode 0x00000006#32 = .ok (.firstpass 0) ∧ decode 0x00000207#32 = .ok (.render 2) ∧
    decode 0x00020010#32 = .ok (.blend2 2) ∧ decode 0x00010011#32 = .ok (.blend4 1) ∧
    decode 0x00020012#32 = .ok (.cmp 2) ∧ decode 0x00010013#32 = .ok (.classify 1) ∧ decode 0x00021014#32 = .ok (.block .b 2)

/-! ### A command request -/

/-- 60_exceptions R233: when the host's next action (the script's head, log 1) is an aligned 32-bit write of a word to CMD (offset 0x010) and
BUSY = 0, and the word decodes to a command, the step is that command's meaning on the accepted state: the action is taken, CMD holds the
whole word, DONE and ERR are 0, and nothing else has changed. The second clause is the model's own placing of a command (log 2): the very
next step after `withFetchWord` runs it, from every state, an engine at work set aside. -/
def Obligations.StepRunsTheDecodedCommand : Prop :=
  (∀ (s : State) (c : Word) (i : Instr) (rest : List Action),
    s.script = .regWrite 0x10#8 .word c :: rest → s.busy = false → decode c = .ok i →
      step s = exec i { s with script := rest, cmd := c, statusDone := false, statusErr := .eNone }) ∧
  (∀ (s : State) (nbits w : Nat) (i : Instr), decodeTableWord nbits w = some i →
    step (s.withFetchWord nbits w) =
      exec i { s with engine := none, cmd := BitVec.ofNat 32 w, statusDone := false, statusErr := .eNone })

/-- 30_encoding R92, R98, 60_exceptions R231, R233: the same write of a word that is no command completes with E_ILLEGAL; CMD holds the
word, and nothing else changes. -/
def Obligations.IllegalWordFailsWithEIllegalOnly : Prop :=
  ∀ (s : State) (c : Word) (rest : List Action),
    s.script = .regWrite 0x10#8 .word c :: rest → s.busy = false →
    (c &&& 0xFFFCE000#32 ≠ 0#32 ∨ (c &&& 0xFF#32).toNat ∉ assignedOps) →
      ∃ t, step s = .next t ∧ CommandEffect [.cmd] .eIllegal { s with script := rest } t ∧ readReg .cmd t = c

/-- 60_exceptions R233, 10_state R26: while BUSY = 1 a write to CMD of any word sets OVR and changes nothing else. -/
def Obligations.CmdWriteWhileBusyOnlySetsOvr : Prop :=
  ∀ (s : State) (c : Word) (rest : List Action),
    s.script = .regWrite 0x10#8 .word c :: rest → s.busy = true →
      step s = .next { s with script := rest, statusOvr := true }

/-! ### The register port -/

/-- 10_state R44, R42: an access of the register block that is not 32 bits wide or not at a multiple of 4 gets no step; an aligned 32-bit
read answers, changes no state but the data returned to the host (log 12), and returns the register's value, or 0 at a reserved
offset; an aligned 32-bit write answers. That the multiple of 4 is of the offset from REG_BASE (10_state R20), not of the bus address, is
the model's choice (log 25). -/
def Obligations.OnlyAlignedWordAccessesAreDefined : Prop :=
  ∀ (s : State) (off : BitVec 8) (size : Size) (v : Word),
    ((size ≠ .word ∨ off.toNat % 4 ≠ 0) →
      hostRead off size s = .refused .undefinedAccess ∧ hostWrite off size v s = .refused .undefinedAccess) ∧
    (size = .word → off.toNat % 4 = 0 →
      hostRead off size s = .next { s with hostData := regValue off s } ∧
        ∃ t, hostWrite off size v s = .next t)

/-- 10_state R20, R21: the offset of every register as the register map gives it (SRC_ADDR 0x20, OPA 0x40, WINk 0x50 + 4k, P3 0x9C, and so
on); a read at that offset reads that register, each offset is a multiple of 4, and the offsets 0x00 to 0x9C hold no other. -/
def Obligations.RegisterMapHasEachRegisterAtItsOffset : Prop :=
  (∀ r : Reg, r.offset.toNat =
    (match r with
      | .id => 0x00 | .caps => 0x04 | .ctrl => 0x08 | .status => 0x0C | .cmd => 0x10 | .result => 0x14 | .slots => 0x18
      | .slotcfg => 0x1C | .srcAddr => 0x20 | .srcStride => 0x24 | .dstAddr => 0x28 | .dstStride => 0x2C | .width => 0x30
      | .height => 0x34 | .outw => 0x38 | .outh => 0x3C | .opa => 0x40 | .opb => 0x44 | .opc => 0x48 | .opd => 0x4C
      | .win k => 0x50 + 4 * k.val | .p0 => 0x90 | .p1 => 0x94 | .p2 => 0x98 | .p3 => 0x9C)) ∧
  (∀ (r : Reg) (s : State), regValue r.offset s = readReg r s ∧ r.offset.toNat % 4 = 0) ∧
  (∀ off : BitVec 8, off.toNat % 4 = 0 → off.toNat ≤ 0x9C → ∃ r : Reg, r.offset = off)

/-- 10_state R42, R43: a write to ID, CAPS, RESULT, SLOTS, SLOTCFG, OUTW, OUTH or P0 to P3 is ignored, it changes no state; reserved offsets
0x0A0 to 0x0FC read as zero, and writes to them change no state; and the reserved fields of CTRL, STATUS, WIDTH and HEIGHT read as zero,
and writes to them change no state. -/
def Obligations.ReadOnlyAndReservedWritesAreIgnored : Prop :=
  (∀ (s : State) (v : Word), ∀ r ∈ [Reg.id, .caps, .result, .slots, .slotcfg, .outw, .outh, .p0, .p1, .p2, .p3],
    hostWrite r.offset .word v s = .next s) ∧
  (∀ (s : State) (off : BitVec 8) (v : Word), 0xA0 ≤ off.toNat → off.toNat % 4 = 0 →
    hostRead off .word s = .next { s with hostData := 0#32 } ∧ hostWrite off .word v s = .next s) ∧
  (∀ (s : State) (v : Word), ∀ x ∈ [(Reg.ctrl, 0xFFFFFFFC#32), (.status, 0xFFFFF0F8#32), (.width, 0xFFFF0000#32), (.height, 0xFFFF0000#32)],
    readReg x.1 s &&& x.2 = 0#32 ∧ hostWrite x.1.offset .word v s = hostWrite x.1.offset .word (v &&& ~~~x.2) s)

/-- 10_state R24, R30 to R35, R37, R38: a write to a read-write register other than CMD, in any state, reads back as written, less the
reserved bits of CTRL, WIDTH and HEIGHT, which read 0; every other register, the slots, memory and a RENDER in progress stay. -/
def Obligations.WriteToReadWriteRegisterReadsBackAndChangesNoOther : Prop :=
  ∀ (s : State) (v : Word) (r : Reg),
    r ∉ [Reg.id, .caps, .status, .cmd, .result, .slots, .slotcfg, .outw, .outh, .p0, .p1, .p2, .p3] →
    ∃ t, hostWrite r.offset .word v s = .next t ∧
      readReg r t = (if r = .ctrl then v &&& 0x3#32 else if r = .width ∨ r = .height then v &&& 0xFFFF#32 else v) ∧
      SameRegsExcept [r] s t ∧ t.slots = s.slots ∧ t.engine = s.engine ∧ SameMemory s t ∧ SameSurroundings s t

/-- 10_state R25, 60_exceptions R230: in every state STATUS shows BUSY in bit 0, DONE in bit 1, OVR in bit 2, the number of the error code in
bits 11:8 (0 E_NONE, 1 E_ILLEGAL, 2 E_CONFIG, 3 E_NOMEM, 4 E_NOSLOT, 5 E_SIZE, 6 E_ALIGN), and 0 in bits 7:3 and 31:12. A write to STATUS
changes only DONE and OVR: each is cleared where its bit of the value is 1, else kept. -/
def Obligations.StatusWriteClearsOnlyDoneAndOvr : Prop :=
  (∀ s : State,
    (readReg .status s).getLsbD 0 = s.busy ∧ (readReg .status s).getLsbD 1 = s.statusDone ∧
    (readReg .status s).getLsbD 2 = s.statusOvr ∧
    (readReg .status s).extractLsb' 8 4 =
      (match s.statusErr with
        | .eNone => 0#4 | .eIllegal => 1#4 | .eConfig => 2#4 | .eNomem => 3#4 | .eNoslot => 4#4 | .eSize => 5#4 | .eAlign => 6#4) ∧
    (readReg .status s) &&& 0xFFFFF0F8#32 = 0#32) ∧
  (∀ (s : State) (v : Word), ∃ t, hostWrite 0x0C#8 .word v s = .next t ∧
    (readReg .status t).getLsbD 1 = ((readReg .status s).getLsbD 1 && !v.getLsbD 1) ∧
    (readReg .status t).getLsbD 2 = ((readReg .status s).getLsbD 2 && !v.getLsbD 2) ∧
    (readReg .status t).getLsbD 0 = (readReg .status s).getLsbD 0 ∧
    (readReg .status t).extractLsb' 8 4 = (readReg .status s).extractLsb' 8 4 ∧
    SameRegsExcept [.status] s t ∧ t.slots = s.slots ∧ t.engine = s.engine ∧ SameMemory s t ∧ SameSurroundings s t)

/-- 10_state R28, R29: SLOTS (offset 0x018, read-only): SLOTS[i] = slot[i].valid for i < NSLOT, and the bits above are 0. SLOTCFG (offset 0x01C,
read-only): nibble i is slot[i].fmt in its bits 1:0, slot[i].desc in bit 2 and 0 in bit 3; the nibble of a slot that is not live, and every
nibble from NSLOT on, reads 0. Both reset to 0. -/
def Obligations.SlotsAndSlotcfgShowTheInstances : Prop :=
  (∀ s : State, (∀ i < 4, (regValue 0x18#8 s).getLsbD i = slotValid s i) ∧ (∀ i, 4 ≤ i → (regValue 0x18#8 s).getLsbD i = false)) ∧
  (∀ (s : State) (i : Nat), i < 4 →
      (∀ inst, instAt s i = some inst →
        (regValue 0x1C#8 s).extractLsb' (4 * i) 4 =
          (match inst.desc with | .a => 0#4 | .b => 4#4) ||| (match inst.fmt with | .xrgb8888 => 1#4 | .rgb565 => 2#4)) ∧
      (slotValid s i = false → (regValue 0x1C#8 s).extractLsb' (4 * i) 4 = 0#4)) ∧
  (∀ (s : State) (i : Nat), 4 ≤ i → i < 8 → (regValue 0x1C#8 s).extractLsb' (4 * i) 4 = 0#4) ∧
  (∀ (s : State) (v : Word), hostWrite 0x18#8 .word v s = .next s ∧ hostWrite 0x1C#8 .word v s = .next s) ∧
  regValue 0x18#8 State.reset = 0#32 ∧ regValue 0x1C#8 State.reset = 0#32

/-- 60_exceptions R240, R241: at every moment the line is STATUS.DONE and CTRL.IE. After every command that completes in its own step it is
up exactly if CTRL.IE is 1, whatever the command and its error code; a STATUS write with bit 1 = 1, or an acceptance, leaves it down; and
a CTRL write that sets or clears IE moves it at once. -/
def Obligations.InterruptLineFollowsCompletionAndAcknowledge : Prop :=
  (∀ s : State, s.irq = ((readReg .status s).getLsbD 1 && (readReg .ctrl s).getLsbD 1)) ∧
  (∀ (i : Instr) (s t : State), exec i s = .next t → t.busy = false → t.irq = (readReg .ctrl s).getLsbD 1) ∧
  (∀ (s t : State) (v : Word), v.getLsbD 1 = true → hostWrite 0x0C#8 .word v s = .next t → t.irq = false) ∧
  (∀ (s : State) (c : Word), (accept c s).irq = false) ∧
  (∀ (s t : State) (v : Word), hostWrite 0x08#8 .word v s = .next t → t.irq = ((readReg .status s).getLsbD 1 && v.getLsbD 1))

/-- 10_state R20: a bus access at REG_BASE plus an offset is the register access at that offset. REG_BASE is the platform's (log 14). That
such an access is aligned when its offset is a multiple of 4, whatever the bus address is, is the model's choice (log 25). -/
def Obligations.BusAccessInTheBlockIsARegisterAccess : Prop :=
  ∀ (s : State) (off : BitVec 8) (size : Size) (v : Word),
    busRead (Config.regBase + off.setWidth 32) size s = hostRead off size s ∧
      busWrite (Config.regBase + off.setWidth 32) size v s = hostWrite off size v s

/-! ### Registry commands -/

/-- 43_registry R180, R181, R182, R187: NOP, and FIRSTPASS on a live slot, complete and change nothing but STATUS; QINFMT sets RESULT to 3
and QOUTFMT to OPA's bits 1:0, and they change nothing else. -/
def Obligations.QueriesAndHooksComplete : Prop :=
  ∀ s : State,
    (∃ t, exec .nop s = .next t ∧ CommandEffect [] .eNone s t) ∧
    (∀ slot inst, instAt s slot = some inst → ∃ t, exec (.firstpass slot) s = .next t ∧ CommandEffect [] .eNone s t) ∧
    (∃ t, exec .qinfmt s = .next t ∧ CommandEffect [.result] .eNone s t ∧ readReg .result t = 3#32) ∧
    (∃ t, exec .qoutfmt s = .next t ∧ CommandEffect [.result] .eNone s t ∧
      readReg .result t = readReg .opa s &&& 0x00000003#32)

/-- 43_registry R183: CREATE with FMT code 1 or 2 and a slot free takes the least free slot, makes it live with the format and the
descriptor, and answers its number in RESULT; other slots and everything but SLOTS, SLOTCFG, RESULT and STATUS stay. -/
def Obligations.CreateTakesTheLeastFreeSlot : Prop :=
  ∀ (desc : Desc) (fmt : Nat) (f : Format) (s : State) (i : Nat),
    (fmt = 1 ∧ f = .xrgb8888 ∨ fmt = 2 ∧ f = .rgb565) →
    i < Config.nslot → instAt s i = none → (∀ k < i, instAt s k ≠ none) →
      ∃ t, exec (.create desc fmt) s = .next t ∧ CommandEffect [.result, .slots, .slotcfg] .eNone s t ∧
        readReg .result t = BitVec.ofNat 32 i ∧ instAt t i = some ⟨f, desc⟩ ∧ ∀ k, k ≠ i → instAt t k = instAt s k

/-- 43_registry R183, R184: CREATE fails with E_CONFIG for a FMT code other than 1 and 2, whatever the slots; else with E_NOMEM when every
slot is live; both set RESULT to 0xFFFFFFFF and change no slot and nothing else. -/
def Obligations.CreateFailsWithTheNullInstance : Prop :=
  ∀ (desc : Desc) (fmt : Nat) (s : State),
    (fmt ≠ 1 ∧ fmt ≠ 2 →
      ∃ t, exec (.create desc fmt) s = .next t ∧ CommandEffect [.result] .eConfig s t ∧ readReg .result t = 0xFFFFFFFF#32) ∧
    ((fmt = 1 ∨ fmt = 2) → (∀ i < Config.nslot, instAt s i ≠ none) →
      ∃ t, exec (.create desc fmt) s = .next t ∧ CommandEffect [.result] .eNomem s t ∧ readReg .result t = 0xFFFFFFFF#32)

/-- 43_registry R185: DESTROY of a live slot frees it and no other, and after it a second DESTROY of that slot fails with E_NOSLOT. -/
def Obligations.DestroyFreesItsSlotOnce : Prop :=
  ∀ (slot : Nat) (inst : Inst) (s : State), instAt s slot = some inst →
    ∃ t, exec (.destroy slot) s = .next t ∧ CommandEffect [.slots, .slotcfg] .eNone s t ∧
      slotValid t slot = false ∧ slotFmt t slot = 0#2 ∧ slotDesc t slot = 0#1 ∧ (∀ k, k ≠ slot → instAt t k = instAt s k) ∧
      ∃ u, exec (.destroy slot) t = .next u ∧ CommandEffect [] .eNoslot t u

/-- 43_registry R186: OUTSIZE on a live slot gives exactly twice WIDTH and HEIGHT, with no overflow, or fails with E_SIZE when one of them
is 0. -/
def Obligations.OutsizeDoublesTheDimensions : Prop :=
  ∀ (slot : Nat) (inst : Inst) (s : State), instAt s slot = some inst →
    (readReg .width s ≠ 0#32 → readReg .height s ≠ 0#32 →
      ∃ t, exec (.outsize slot) s = .next t ∧ CommandEffect [.outw, .outh] .eNone s t ∧
        (readReg .outw t).toNat = 2 * (readReg .width s).toNat ∧ (readReg .outh t).toNat = 2 * (readReg .height s).toNat) ∧
    ((readReg .width s = 0#32 ∨ readReg .height s = 0#32) →
      ∃ t, exec (.outsize slot) s = .next t ∧ CommandEffect [] .eSize s t)

/-- 30_encoding R95, 43_registry R189, 44_render R201: DESTROY, OUTSIZE, FIRSTPASS and RENDER on a slot number from NSLOT on, or on a slot
that is not live, fail with E_NOSLOT and do nothing else, whatever every register holds. -/
def Obligations.CommandOnAMissingSlotFailsWithENoslot : Prop :=
  ∀ (slot : Nat) (s : State), (Config.nslot ≤ slot ∨ slotValid s slot = false) →
    ∀ i ∈ [Instr.destroy slot, .outsize slot, .firstpass slot, .render slot],
      ∃ t, exec i s = .next t ∧ CommandEffect [] .eNoslot s t

/-- 43_registry R189: a command on slot i reads and writes no state of slot k ≠ i: it commutes with any change of slot k. -/
def Obligations.CommandsOnOneSlotIgnoreTheOthers : Prop :=
  ∀ (i k : Nat) (x : Option Inst) (s : State), i ≠ k →
    ∀ c ∈ [Instr.destroy i, .outsize i, .firstpass i, .render i],
      exec c (setSlot k x s) = mapNext (setSlot k x) (exec c s)

/-- 30_encoding R93, 60_exceptions R234: BLEND2, BLEND4, CMP, CLASSIFY and BLOCK with a FMT code other than 1 and 2 fail with E_CONFIG
and change nothing else. -/
def Obligations.UnknownFormatFailsWithEConfig : Prop :=
  ∀ (desc : Desc) (fmt : Nat) (s : State), fmt ≠ 1 → fmt ≠ 2 →
    ∀ i ∈ [Instr.blend2 fmt, .blend4 fmt, .cmp fmt, .classify fmt, .block desc fmt],
      ∃ t, exec i s = .next t ∧ CommandEffect [] .eConfig s t

/-! ### Blends -/

/-- 40_blend R114, R117: BLEND2 sets every channel of RESULT to the floor average of the operands' channels, the padding byte of XRGB8888
included (R116), RESULT is an element of the format, and nothing else but STATUS changes. 10_state R27 omits BLEND2 among RESULT's writers
(log 26). -/
def Obligations.Blend2AveragesEachChannel : Prop :=
  ∀ (fmt : Nat) (f : Format) (s : State), (fmt = 1 ∧ f = .xrgb8888 ∨ fmt = 2 ∧ f = .rgb565) →
    ∃ t, exec (.blend2 fmt) s = .next t ∧ CommandEffect [.result] .eNone s t ∧ IsElement f (readReg .result t) ∧
      ∀ ch ∈ channels f, channel (readReg .result t) ch = (channel (readReg .opa s) ch + channel (readReg .opb s) ch) / 2

/-- 40_blend R114, R118: BLEND4 sets every channel of RESULT to the floor average of the four operands' channels, RESULT is an element of
the format, and nothing else but STATUS changes. 10_state R27 omits BLEND4 among RESULT's writers (log 26). -/
def Obligations.Blend4AveragesEachChannel : Prop :=
  ∀ (fmt : Nat) (f : Format) (s : State), (fmt = 1 ∧ f = .xrgb8888 ∨ fmt = 2 ∧ f = .rgb565) →
    ∃ t, exec (.blend4 fmt) s = .next t ∧ CommandEffect [.result] .eNone s t ∧ IsElement f (readReg .result t) ∧
      ∀ ch ∈ channels f, channel (readReg .result t) ch =
        (channel (readReg .opa s) ch + channel (readReg .opb s) ch + channel (readReg .opc s) ch + channel (readReg .opd s) ch) / 4

/-- 40_blend R115: blend2 is symmetric, blend4 is invariant under every permutation of its operands, and both leave an element that is
blended with itself as it is. -/
def Obligations.BlendsAreSymmetricAndIdempotent : Prop :=
  ∀ f : Format,
    (∀ a b : Word, blend2 f a b = blend2 f b a) ∧
    (∀ l l' : List Word, l.Perm l' → ∀ a b c d a' b' c' d', l = [a, b, c, d] → l' = [a', b', c', d'] →
      blend4 f a b c d = blend4 f a' b' c' d') ∧
    (∀ c : Word, IsElement f c → blend2 f c c = c ∧ blend4 f c c c c = c)

/-! ### Classifier -/

/-- 41_classifier R131, R132, R133: CMP answers +1 exactly when y = z = x and w ≠ x, -1 exactly when y = z = w and w ≠ x, else 0, on whole
elements of the format (the low 16 bits for RGB565), sign-extended in RESULT. -/
def Obligations.CmpAnswersTheDirectionalComparison : Prop :=
  ∀ (fmt : Nat) (f : Format) (s : State), (fmt = 1 ∧ f = .xrgb8888 ∨ fmt = 2 ∧ f = .rgb565) →
    ∃ t, exec (.cmp fmt) s = .next t ∧ CommandEffect [.result] .eNone s t ∧
      let w := px f (readReg .opa s)
      let x := px f (readReg .opb s)
      let y := px f (readReg .opc s)
      let z := px f (readReg .opd s)
      (y = x ∧ z = x ∧ w ≠ x → readReg .result t = 0x00000001#32) ∧
      (y = w ∧ z = w ∧ w ≠ x → readReg .result t = 0xFFFFFFFF#32) ∧
      (¬(y = x ∧ z = x ∧ w ≠ x) → ¬(y = w ∧ z = w ∧ w ≠ x) → readReg .result t = 0x00000000#32)

/-- 10_state R38, 41_classifier R130, R134, R135, R138: CLASSIFY takes its window from WIN0 to WIN15. It sets RESULT[1:0] to the window's
case (1 EDGE, 2 DIAG, 3 GENERIC), RESULT[11:8] to its vote, a number from -4 to 4 in two's complement, and RESULT's other bits to 0, and
changes nothing else but STATUS. The vote sums four pairs, (G, H), (K, L), (E, F), (I, J): +1 for a pair both equal to B and -1 for a pair
both equal to A where A ≠ B, and 0 for every other pair. -/
def Obligations.ClassifyReportsCaseAndVote : Prop :=
  ∀ (fmt : Nat) (f : Format) (s : State), (fmt = 1 ∧ f = .xrgb8888 ∨ fmt = 2 ∧ f = .rgb565) →
    let w := winWindow f s
    let pair (p q : Word) : Int :=
      if w.a ≠ w.b ∧ p = w.b ∧ q = w.b then 1 else if w.a ≠ w.b ∧ p = w.a ∧ q = w.a then -1 else 0
    ∃ t, exec (.classify fmt) s = .next t ∧ CommandEffect [.result] .eNone s t ∧
      ((readReg .result t).extractLsb' 8 4).toInt = vote w ∧
      vote w = pair w.g w.h + pair w.k w.l + pair w.e w.f + pair w.i w.j ∧
      -4 ≤ vote w ∧ vote w ≤ 4 ∧
      (readReg .result t).extractLsb' 0 2 = (match caseOf w with | .edge => 1#2 | .diag => 2#2 | .generic => 3#2) ∧
      readReg .result t &&& 0xFFFFF0FC#32 = 0#32

/-- 41_classifier R136, R137: a window is EDGE exactly when one of the pairs (A, B), (A, C) is equal and the other is not, DIAG exactly when
A = D, B = C and A ≠ B, and GENERIC exactly when A = B = C, or A ≠ B and A ≠ C and not both A = D and B = C. -/
def Obligations.CasesAreCharacterisedByTheCentre : Prop :=
  ∀ w : Window,
    (caseOf w = .edge ↔ (w.a = w.b ∧ w.a ≠ w.c ∨ w.a ≠ w.b ∧ w.a = w.c)) ∧
    (caseOf w = .diag ↔ (w.a = w.d ∧ w.b = w.c ∧ w.a ≠ w.b)) ∧
    (caseOf w = .generic ↔ (w.a = w.b ∧ w.b = w.c ∨ w.a ≠ w.b ∧ w.a ≠ w.c ∧ ¬(w.a = w.d ∧ w.b = w.c)))

/-- 41_classifier R137 (4), 42_kernels R165: case and vote depend only on which elements are equal: a one-to-one change of the element
values leaves them as they are, whatever format the values are taken in. -/
def Obligations.CaseAndVoteDependOnEqualitiesOnly : Prop :=
  ∀ (g : Word → Word) (w : Window), (∀ x y, g x = g y → x = y) →
    caseOf (w.map g) = caseOf w ∧ vote (w.map g) = vote w

/-! ### Kernels -/

/-- 10_state R38, 42_kernels R160: BLOCK puts the four elements of its kernel on the window of WIN0 to WIN15 in P0 to P3, and changes nothing else but
STATUS; each is an element of the format, and p00 is the element in WIN5. -/
def Obligations.BlockPutsTheKernelInP0ToP3 : Prop :=
  ∀ (desc : Desc) (fmt : Nat) (f : Format) (s : State), (fmt = 1 ∧ f = .xrgb8888 ∨ fmt = 2 ∧ f = .rgb565) →
    ∃ t, exec (.block desc fmt) s = .next t ∧ CommandEffect [.p0, .p1, .p2, .p3] .eNone s t ∧
      readReg .p0 t = px f (readReg (.win 5) s) ∧
      readReg .p1 t = (kernel desc f (winWindow f s)).p01 ∧ readReg .p2 t = (kernel desc f (winWindow f s)).p10 ∧
      readReg .p3 t = (kernel desc f (winWindow f s)).p11 ∧
      IsElement f (readReg .p0 t) ∧ IsElement f (readReg .p1 t) ∧ IsElement f (readReg .p2 t) ∧ IsElement f (readReg .p3 t)

/-- 42_kernels R152 to R155: when exactly one of the pairs (A, B), (A, C) is equal, all four elements are A, in both kernels. In a DIAG window
p01 and p10 are equal blends of A and B, and p11 is A for a positive vote, B for a negative one, and for a zero vote blend2(A, B) in kernel
A and blend4(A, A, A, B) in kernel B. -/
def Obligations.EdgeIsBroadcastAndDiagonalFollowsTheVote : Prop :=
  ∀ (desc : Desc) (f : Format) (w : Window),
    ((w.a = w.b ∧ w.a ≠ w.c ∨ w.a ≠ w.b ∧ w.a = w.c) → kernel desc f w = ⟨w.a, w.a, w.a, w.a⟩) ∧
    (w.a = w.d → w.b = w.c → w.a ≠ w.b →
      (kernel desc f w).p00 = w.a ∧ (kernel desc f w).p01 = blend2 f w.a w.b ∧ (kernel desc f w).p10 = blend2 f w.a w.c ∧
      (kernel desc f w).p10 = (kernel desc f w).p01 ∧
      (0 < vote w → (kernel desc f w).p11 = w.a) ∧ (vote w < 0 → (kernel desc f w).p11 = w.b) ∧
      (vote w = 0 → (kernel .a f w).p11 = blend2 f w.a w.b ∧ (kernel .b f w).p11 = blend4 f w.a w.a w.a w.b))

/-- 42_kernels R156, R159: kernel B on a GENERIC window, each element by the equalities it tests. -/
def Obligations.KernelBTakesAColourOnTwoDiagonals : Prop :=
  ∀ (f : Format) (w : Window), caseOf w = .generic →
    kernel .b f w =
      { p00 := w.a
        p01 := if w.a = w.f ∧ w.a = w.d then w.a else if w.b = w.e ∧ w.b = w.c then w.b else blend2 f w.a w.b
        p10 := if w.a = w.h ∧ w.a = w.d then w.a else if w.c = w.g ∧ w.c = w.b then w.c else blend2 f w.a w.c
        p11 := if w.a = w.d then w.a else if w.b = w.c then w.b else blend2 f w.a w.d }

/-- 42_kernels R157, R158: kernel A on a GENERIC window takes A for p01 when more diagonals from A than from B continue their colour and
B ≠ K, B when more from B do and A ≠ G, and else blends; p10 likewise with C, N and E; p00 and p11 are those of R156. -/
def Obligations.KernelATakesTheMajorityUnlessARunIsCut : Prop :=
  ∀ (f : Format) (w : Window), caseOf w = .generic →
    let count (p q : Bool) : Nat := p.toNat + q.toNat
    let a01 := count (w.a = w.f) (w.a = w.d)
    let b01 := count (w.b = w.e) (w.b = w.c)
    let a10 := count (w.a = w.h) (w.a = w.d)
    let c10 := count (w.c = w.g) (w.c = w.b)
    kernel .a f w =
      { p00 := w.a
        p01 := if b01 < a01 ∧ w.b ≠ w.k then w.a else if a01 < b01 ∧ w.a ≠ w.g then w.b else blend2 f w.a w.b
        p10 := if c10 < a10 ∧ w.c ≠ w.n then w.a else if a10 < c10 ∧ w.a ≠ w.e then w.c else blend2 f w.a w.c
        p11 := if w.a = w.d then w.a else if w.b = w.c then w.b else blend2 f w.a w.d }

/-- 42_kernels R161: every element a kernel writes is one of A, B, C, blend2(A, B), blend2(A, C), blend2(A, D) or, in kernel B only,
blend4(A, A, A, B). -/
def Obligations.KernelOutputsStayInTheAlphabet : Prop :=
  ∀ (desc : Desc) (f : Format) (w : Window),
    ∀ v ∈ [(kernel desc f w).p00, (kernel desc f w).p01, (kernel desc f w).p10, (kernel desc f w).p11],
      v = w.a ∨ v = w.b ∨ v = w.c ∨ v = blend2 f w.a w.b ∨ v = blend2 f w.a w.c ∨ v = blend2 f w.a w.d ∨
        (desc = .b ∧ v = blend4 f w.a w.a w.a w.b)

/-- 42_kernels R162, R163, R164: a window of one colour gives that colour; a vertical or horizontal edge between two colours gives the
colour of A; a one-pixel diagonal line keeps its colour in p11, with vote +3 on the main diagonal and -3 on the other. -/
def Obligations.FlatEdgeAndLineWindowsStaySharp : Prop :=
  ∀ (desc : Desc) (f : Format) (x y : Word), IsElement f x → x ≠ y →
    kernel desc f ⟨x, x, x, x, x, x, x, x, x, x, x, x, x, x, x, x⟩ = ⟨x, x, x, x⟩ ∧
    kernel desc f ⟨x, x, y, y, x, x, y, y, x, x, y, y, x, x, y, y⟩ = ⟨x, x, x, x⟩ ∧
    kernel desc f ⟨x, x, x, x, x, x, x, x, y, y, y, y, y, y, y, y⟩ = ⟨x, x, x, x⟩ ∧
    vote ⟨x, y, y, y, y, x, y, y, y, y, x, y, y, y, y, x⟩ = 3 ∧
    (kernel desc f ⟨x, y, y, y, y, x, y, y, y, y, x, y, y, y, y, x⟩).p11 = x ∧
    vote ⟨y, y, y, x, y, y, x, y, y, x, y, y, x, y, y, y⟩ = -3 ∧
    (kernel desc f ⟨y, y, y, x, y, y, x, y, y, x, y, y, x, y, y, y⟩).p11 = x

/-- 41_classifier R139, 42_kernels R160: BLOCK reads WIN0 to WIN11, and WIN13 in kernel A only: two states that agree on those registers as
elements of the format get the same P0 to P3. -/
def Obligations.BlockIgnoresTheRegistersOutsideItsReadSet : Prop :=
  ∀ (desc : Desc) (fmt : Nat) (f : Format) (s s' t t' : State), (fmt = 1 ∧ f = .xrgb8888 ∨ fmt = 2 ∧ f = .rgb565) →
    (∀ k : Fin 16, k ≠ 12 → k ≠ 14 → k ≠ 15 → (desc = .b → k ≠ 13) →
      px f (readReg (.win k) s) = px f (readReg (.win k) s')) →
    exec (.block desc fmt) s = .next t → exec (.block desc fmt) s' = .next t' →
      ∀ r ∈ [Reg.p0, .p1, .p2, .p3], readReg r t = readReg r t'

/-! ### RENDER -/

/-- 44_render R202, R234 of 60_exceptions: on a live slot RENDER fails with E_SIZE when WIDTH or HEIGHT is 0, whatever else; else with E_ALIGN
when an address or a stride is no multiple of the element size; else with E_SIZE when a stride is smaller than its row; and it changes
nothing else. -/
def Obligations.RenderReportsTheFirstFailingCheck : Prop :=
  ∀ (slot : Nat) (inst : Inst) (s : State), instAt s slot = some inst →
    let e := esz inst.fmt
    let reg (r : Reg) : Nat := (readReg r s).toNat
    let aligned := e ∣ reg .srcAddr ∧ e ∣ reg .dstAddr ∧ e ∣ reg .srcStride ∧ e ∣ reg .dstStride
    ((reg .width = 0 ∨ reg .height = 0) →
      ∃ t, exec (.render slot) s = .next t ∧ CommandEffect [] .eSize s t) ∧
    (reg .width ≠ 0 → reg .height ≠ 0 → ¬ aligned →
      ∃ t, exec (.render slot) s = .next t ∧ CommandEffect [] .eAlign s t) ∧
    (reg .width ≠ 0 → reg .height ≠ 0 → aligned →
      (reg .srcStride < reg .width * e ∨ reg .dstStride < 2 * reg .width * e) →
      ∃ t, exec (.render slot) s = .next t ∧ CommandEffect [] .eSize s t)

/-- 44_render R203, 10_state R24: when every check passes RENDER is accepted: BUSY = 1, the engine's latches hold the registers SRC_ADDR to
HEIGHT, the slot's format and descriptor, CTRL.CLAMP (bit 0 of CTRL), no done block, and memory as S0; DONE, ERR, OVR, every register but
STATUS, the slots and memory stay. -/
def Obligations.AcceptedRenderLatchesItsParameters : Prop :=
  ∀ (slot : Nat) (inst : Inst) (s : State), instAt s slot = some inst →
    let e := esz inst.fmt
    let reg (r : Reg) : Nat := (readReg r s).toNat
    reg .width ≠ 0 → reg .height ≠ 0 →
    e ∣ reg .srcAddr → e ∣ reg .dstAddr → e ∣ reg .srcStride → e ∣ reg .dstStride →
    reg .width * e ≤ reg .srcStride → 2 * reg .width * e ≤ reg .dstStride →
      ∃ t j, exec (.render slot) s = .next t ∧ t.busy = true ∧
        t.latSrc = readReg .srcAddr s ∧ t.latSstride = readReg .srcStride s ∧ t.latDst = readReg .dstAddr s ∧
        t.latDstride = readReg .dstStride s ∧ t.latW.toNat = reg .width ∧ t.latH.toNat = reg .height ∧
        t.latFmt = slotFmt s slot ∧ t.latDesc = slotDesc s slot ∧
        t.latClamp = (readReg .ctrl s).getLsbD 0 ∧ t.doneBlocks = [] ∧
        t.engine = some j ∧ j.s0 = s.mem ∧ j.disturbed = false ∧ j.stuck = false ∧
        t.statusDone = s.statusDone ∧ t.statusErr = s.statusErr ∧ t.statusOvr = s.statusOvr ∧
        SameRegsExcept [.status] s t ∧ t.slots = s.slots ∧ SameMemory s t ∧ SameSurroundings s t

/-- 44_render R205, R206, 20_memory R67: in clamp mode every fetch reads an element inside the source raster, the nearest one; in raw mode
it reads the address computed from the coordinates; both from S0. -/
def Obligations.FetchClampsOrReadsTheComputedAddress : Prop :=
  ∀ (j : Job) (x y : Int), j.w ≠ 0#16 → j.h ≠ 0#16 →
    (j.clamp = true → ∃ cx cy : Nat, cx < j.w.toNat ∧ cy < j.h.toNat ∧
      (cx : Int) = min (max x 0) (j.w.toNat - 1) ∧ (cy : Int) = min (max y 0) (j.h.toNat - 1) ∧
      j.fetch x y = j.s0.readElem (esz j.fmt)
        (BitVec.ofNat 32 (j.src.toNat + cy * j.sstride.toNat + cx * esz j.fmt))) ∧
    (j.clamp = false →
      j.fetch x y = j.s0.readElem (esz j.fmt) (BitVec.ofInt 32 (j.src.toNat + y * j.sstride.toNat + x * esz j.fmt)))

/-- 20_memory R68: every address a coherent RENDER reads or writes is a multiple of the element size, also after the reduction modulo
2^32. -/
def Obligations.EngineAccessesAreAligned : Prop :=
  ∀ (j : Job), j.Coherent → ∀ c : Nat × Nat, ∀ a ∈ j.readsOf c ++ j.writesOf c, a.toNat % esz j.fmt = 0

/-- 44_render R209, 41_classifier R139: the block of a coordinate depends on memory only through the bytes of its read set: two jobs that
differ only in S0, and whose S0 agree on those bytes, compute the same block. -/
def Obligations.BlockDependsOnItsReadSetOnly : Prop :=
  ∀ (j : Job) (m : Memory) (c : Nat × Nat),
    (∀ a ∈ (j.readsOf c).flatMap (elemBytes (esz j.fmt)), j.s0.read a = m.read a) →
      Job.block { j with s0 := m } c.1 c.2 = j.block c.1 c.2

/-- 44_render R215, R210, R204: an engine step that the platform serves, with a block left, takes one coordinate of the raster that was not
in done_blocks, adds it there, and writes its block: where the destination has no byte twice, each of the block's four elements then holds
its kernel element, at its address. It changes no byte of memory outside those four elements, no register and nothing else of the RENDER. -/
def Obligations.EngineStepDoesOneBlock : Prop :=
  ∀ (s : State) (j : Job) (choice : Option Nat), s.engine = some j → j.stuck = false → j.Served s.platform →
    (∃ c ∈ j.coords, c ∉ j.done) →
      ∃ c ∈ j.coords, c ∉ j.done ∧
        (engineStep choice s).engine = some { j with done := insertBlock c j.done } ∧
        (∀ d, d ∈ insertBlock c j.done ↔ d = c ∨ d ∈ j.done) ∧
        (engineStep choice s).mem = j.writeBlock s.mem c ∧
        (s.mem.wf = true → j.dsetBytes.Nodup →
          let b := kernel j.desc j.fmt (j.window c.1 c.2)
          let elem (x y : Nat) :=
            (engineStep choice s).mem.readElem (esz j.fmt) (BitVec.ofNat 32 (j.dst.toNat + y * j.dstride.toNat + x * esz j.fmt))
          elem (2 * c.1) (2 * c.2) = b.p00 ∧ elem (2 * c.1 + 1) (2 * c.2) = b.p01 ∧
            elem (2 * c.1) (2 * c.2 + 1) = b.p10 ∧ elem (2 * c.1 + 1) (2 * c.2 + 1) = b.p11) ∧
        (∀ a, a ∉ (j.writesOf c).flatMap (elemBytes (esz j.fmt)) → (engineStep choice s).mem.read a = s.mem.read a) ∧
        SameRegsExcept [] s (engineStep choice s) ∧ (engineStep choice s).slots = s.slots

/-- 44_render R211: when every coordinate is in done_blocks the next engine step completes the RENDER: BUSY = 0, DONE = 1, ERR = 0, every
register but STATUS as before, and no byte outside the destination changed. -/
def Obligations.EngineStepCompletesAFinishedRender : Prop :=
  ∀ (s : State) (j : Job) (choice : Option Nat), s.engine = some j → j.stuck = false → (∀ c ∈ j.coords, c ∈ j.done) →
    CompletedWith .eNone s (engineStep choice s) ∧ SameRegsExcept [.status] s (engineStep choice s) ∧
      (engineStep choice s).slots = s.slots ∧
      (∀ a, a ∉ j.dsetBytes → (engineStep choice s).mem.read a = s.mem.read a) ∧
      (j.anyValue s.platform = false → SameMemory s (engineStep choice s))

/-- 44_render R203: from its acceptance on a RENDER depends on no register: whatever the host writes to a register other than CMD, the next
engine step, on the same choice of block, leaves the same memory and the same progress. -/
def Obligations.RunningRenderDependsOnNoRegister : Prop :=
  ∀ (s t : State) (r : Reg) (v : Word) (choice : Option Nat), r ≠ .cmd → hostWrite r.offset .word v s = .next t →
    (engineStep choice t).mem = (engineStep choice s).mem ∧ (engineStep choice t).engine = (engineStep choice s).engine

/-- 20_memory R72: while the platform refuses an access that a block not yet done needs, the RENDER never completes: every step of the machine
but a reset leaves it so, and BUSY at 1, and so does every run of engine steps. An engine step on it does one block the platform serves,
or meets a refused one and is stuck: after that no engine step changes anything. When every block left is refused the next engine step
is stuck. That the step that meets the refused access leaves memory as it is, no byte of that block being written, is the model's reading
(log 8). -/
def Obligations.RefusedAccessLeavesTheRenderStuck : Prop :=
  (∀ s t : State, Blocked s → s.script.head? ≠ some .reset → step s = .next t → Blocked t ∧ t.busy = true) ∧
  (∀ (s : State) (choices : List (Option Nat)), Blocked s → (choices.foldl (fun u c => engineStep c u) s).busy = true) ∧
  (∀ (s : State) (j : Job) (choice : Option Nat), s.engine = some j → Blocked s →
    (j.stuck = true → engineStep choice s = s) ∧
    (j.stuck = false → ∃ c ∈ j.coords, c ∉ j.done ∧ SameRegsExcept [] s (engineStep choice s) ∧
      (j.refusedAt s.platform c = false →
        (engineStep choice s).engine = some { j with done := insertBlock c j.done } ∧
          (engineStep choice s).mem = j.writeBlock s.mem c) ∧
      (j.refusedAt s.platform c = true →
        (engineStep choice s).engine = some { j with stuck := true } ∧ (engineStep choice s).mem = s.mem))) ∧
  (∀ (s : State) (j : Job) (choice choice' : Option Nat), s.engine = some j → (∃ c ∈ j.coords, c ∉ j.done) →
    (∀ c ∈ j.coords, c ∉ j.done → j.refusedAt s.platform c = true) →
      (engineStep choice s).busy = true ∧ (engineStep choice s).mem = s.mem ∧
        engineStep choice' (engineStep choice s) = engineStep choice s)

/-- 44_render R212, 70_reset_and_hazards R273: an accepted RENDER whose accesses the platform serves completes normally after exactly
w·h + 1 engine steps (actions of the script, log 1), in whatever order its blocks are taken, also when its destination holds any value:
BUSY is 1 after every smaller number of them. The engine has then written no byte outside the destination, and every register but STATUS
is as before. -/
def Obligations.RenderCompletesInWidthTimesHeightPlusOneSteps : Prop :=
  ∀ (s : State) (j : Job) (choices : List (Option Nat)) (rest : List Action),
    JustAccepted j s → j.Served s.platform → choices.length = j.w.toNat * j.h.toNat + 1 →
    s.script = choices.map .engine ++ rest →
      (∀ k ≤ j.w.toNat * j.h.toNat, ∃ u : State, Host.Core.run Sys2Proof.core k s = .next u ∧ u.busy = true) ∧
      ∃ t, Host.Core.run Sys2Proof.core (j.w.toNat * j.h.toNat + 1) s = .next t ∧ t.script = rest ∧
        CompletedWith .eNone s t ∧ SameRegsExcept [.status] s t ∧ t.slots = s.slots ∧
        ∀ a, a ∉ j.dsetBytes → t.mem.read a = s.mem.read a

/-- 44_render R204, R208, R211: when the destination is disjoint from the read set and from itself and no one disturbs the RENDER, then at
its completion every destination element holds its kernel element, in whatever order the blocks are taken. -/
def Obligations.RenderWritesTheKernelOfEveryWindow : Prop :=
  ∀ (s : State) (j : Job) (choices : List (Option Nat)) (rest : List Action),
    JustAccepted j s → j.Coherent → j.Served s.platform → j.anyValue s.platform = false →
    choices.length = j.w.toNat * j.h.toNat + 1 → s.script = choices.map .engine ++ rest →
      ∃ t, Host.Core.run Sys2Proof.core (j.w.toNat * j.h.toNat + 1) s = .next t ∧ t.busy = false ∧
        ∀ x y, x < j.w.toNat → y < j.h.toNat →
          let b := kernel j.desc j.fmt (j.window x y)
          let elem (cx cy : Nat) := t.mem.readElem (esz j.fmt) (BitVec.ofNat 32 (j.dst.toNat + cy * j.dstride.toNat + cx * esz j.fmt))
          elem (2 * x) (2 * y) = b.p00 ∧ elem (2 * x + 1) (2 * y) = b.p01 ∧
            elem (2 * x) (2 * y + 1) = b.p10 ∧ elem (2 * x + 1) (2 * y + 1) = b.p11

/-- 44_render R213: two RENDERs with the same latched state whose memories agree on the read set leave the same bytes in the destination,
whatever else memory, registers and schedules hold. -/
def Obligations.RenderIsDeterministicInItsReadSet : Prop :=
  ∀ (s s' : State) (j j' : Job) (choices choices' : List (Option Nat)),
    JustAccepted j s → JustAccepted j' s' → j.Coherent → j'.Coherent → j' = { j with s0 := j'.s0 } →
    j.Served s.platform → j'.Served s'.platform → j.anyValue s.platform = false → j'.anyValue s'.platform = false →
    choices.length = j.w.toNat * j.h.toNat + 1 → choices'.length = j.w.toNat * j.h.toNat + 1 →
    (∀ a ∈ j.rsetBytes, s.mem.read a = s'.mem.read a) →
      ∀ a ∈ j.dsetBytes,
        (choices.foldl (fun u c => engineStep c u) s).mem.read a = (choices'.foldl (fun u c => engineStep c u) s').mem.read a

/-- 44_render R217: in clamp mode, a source whose columns below k are X and whose other columns are Y, all rows alike, gives blocks that hold
only X and Y, in both kernels. -/
def Obligations.VerticalEdgeRasterStaysSharp : Prop :=
  ∀ (j : Job) (k : Nat) (x y : Word), j.clamp = true → j.w ≠ 0#16 → j.h ≠ 0#16 → 1 ≤ k → k < j.w.toNat →
    (∀ cx cy : Nat, cx < j.w.toNat → cy < j.h.toNat →
      j.s0.readElem (esz j.fmt) (elemAddr j.src j.sstride j.fmt cx cy) = if cx < k then x else y) →
    ∀ cx cy : Nat, cx < j.w.toNat → cy < j.h.toNat →
      ∀ v ∈ [(j.block cx cy).p00, (j.block cx cy).p01, (j.block cx cy).p10, (j.block cx cy).p11], v = x ∨ v = y

/-! ### Memory and the host beside the engine -/

/-- 20_memory R62: an element stored at an address reads back as its low bytes, byte k of the value lies at address + k (ENDIAN = LE), and
every other byte stays. -/
def Obligations.ElementStoreIsLittleEndian : Prop :=
  ∀ (m : Memory) (f : Format) (a : Addr) (v : Word), m.wf = true →
    (m.writeElem (esz f) a v).readElem (esz f) a = px f v ∧
    (∀ k < esz f, ((m.writeElem (esz f) a v).read (a + BitVec.ofNat 32 k)).toNat = v.toNat / 2 ^ (8 * k) % 256) ∧
    (∀ x, (∀ k < esz f, x ≠ a + BitVec.ofNat 32 k) → (m.writeElem (esz f) a v).read x = m.read x)

/-- 20_memory R62, R74, R75, 44_render R212 (3), 60_exceptions R243: a host write of ordinary memory of 1, 2 or 4 bytes (widths and
alignments are the model's choice, log 27) stores the bytes of its value, the lowest at the lowest address, and no others. It changes no
register and no slot. With no RENDER in progress there is none after it, and one in progress is disturbed after it exactly if it was
before, or if a byte written lies in its read set or in its destination. -/
def Obligations.HostWriteDuringRenderDisturbsIt : Prop :=
  ∀ (s : State) (a : Addr) (size : Size) (v : Word), s.mem.wf = true →
    (∀ x ∈ elemBytes size.bytes a, inRegion s.platform .refused x = false ∧ inRegion s.platform .sideEffects x = false) →
      ∃ t, hostMemWrite a size v s = .next t ∧
        (∀ k < size.bytes, (t.mem.read (a + BitVec.ofNat 32 k)).toNat = v.toNat / 2 ^ (8 * k) % 256) ∧
        (∀ x, x ∉ elemBytes size.bytes a → t.mem.read x = s.mem.read x) ∧
        SameRegsExcept [] s t ∧ t.slots = s.slots ∧ SameSurroundings s t ∧
        (s.engine = none → t.engine = none) ∧
        ∀ j, s.engine = some j → ∃ j', t.engine = some j' ∧ j' = { j with disturbed := j'.disturbed } ∧
          (j'.disturbed = true ↔
            j.disturbed = true ∨ ∃ x ∈ elemBytes size.bytes a, x ∈ j.rsetBytes ∨ x ∈ j.dsetBytes)

/-- 20_memory R73 (2), R75: with no RENDER in progress a host read of ordinary memory returns what memory holds there, so every destination
write of a completed RENDER is seen; that it may be of 1, 2 or 4 bytes at every address, as one step, is the model's choice (log 27).
While BUSY = 1 a host read of a destination element of an undisturbed RENDER returns its value before the RENDER or its final value, which
of them being a free value (log 6). Neither changes a register, a RENDER in progress or memory. -/
def Obligations.HostReadSeesMemoryOrOldOrFinalElements : Prop :=
  (∀ (s : State) (a : Addr) (size : Size), s.busy = false →
    (∀ x ∈ elemBytes size.bytes a, inRegion s.platform .refused x = false ∧ inRegion s.platform .sideEffects x = false) →
      ∃ t, hostMemRead a size s = .next t ∧ t.hostData = s.mem.readElem size.bytes a ∧
        SameRegsExcept [] s t ∧ t.slots = s.slots ∧ t.engine = s.engine ∧ SameMemory s t) ∧
  (∀ (s : State) (j : Job) (c : Nat × Nat) (a : Addr), s.engine = some j → j.Coherent → j.anyValue s.platform = false →
    c ∈ j.coords → a ∈ j.writesOf c →
    (∀ x ∈ elemBytes (esz j.fmt) a, inRegion s.platform .refused x = false ∧ inRegion s.platform .sideEffects x = false) →
      ∃ t, hostMemRead a (elemSize j.fmt) s = .next t ∧
        (t.hostData = j.s0.readElem (esz j.fmt) a ∨ t.hostData = j.finalMem.readElem (esz j.fmt) a) ∧
        SameRegsExcept [] s t ∧ t.slots = s.slots ∧ t.engine = s.engine ∧ SameMemory s t)

/-- 30_encoding R103 (log 13): `wait_idle` reads STATUS and ends when BUSY is 0; while BUSY is 1 each poll is followed by one engine step
and by the next poll. -/
def Obligations.WaitIdlePollsUntilTheEngineIsDone : Prop :=
  ∀ (s : State) (rest : List Action), s.script = .waitIdle :: rest →
    (s.busy = false → step s = .next { s with script := rest, hostData := readReg .status s }) ∧
    (s.busy = true → ∃ u, step s = .next u ∧ u.hostData = readReg .status s ∧ SameRegsExcept [] s u ∧ SameMemory s u ∧
      step u = .next (engineStep none { s with script := .waitIdle :: rest, hostData := readReg .status s }))

/-! ### Reset, idling and the invariants -/

/-- 70_reset_and_hazards R261: every register holds its reset value in the reset state, no slot is live, the engine is idle with every
latch 0, and the interrupt line is low. -/
def Obligations.ResetStateHoldsTheResetValues : Prop :=
  (∀ r : Reg, readReg r State.reset =
    (match r with | .id => 0x4D590007#32 | .caps => 0x0000240F#32 | .ctrl => 0x00000001#32 | _ => 0#32)) ∧
  (∀ i, slotValid State.reset i = false ∧ slotFmt State.reset i = 0#2 ∧ slotDesc State.reset i = 0#1) ∧
  State.reset.busy = false ∧ State.reset.latSrc = 0#32 ∧ State.reset.latSstride = 0#32 ∧ State.reset.latDst = 0#32 ∧
  State.reset.latDstride = 0#32 ∧ State.reset.latW = 0#16 ∧ State.reset.latH = 0#16 ∧ State.reset.latFmt = 0#2 ∧
  State.reset.latDesc = 0#1 ∧ State.reset.latClamp = false ∧ State.reset.doneBlocks = [] ∧ State.reset.irq = false

/-- 70_reset_and_hazards R260 to R263: a reset between any two steps gives every register its reset value and frees every slot; memory is
untouched, but for the destination of a RENDER it abandons. That the platform's map and the host's actions still to come outlive the reset
is the model's reading (log 21). -/
def Obligations.ResetStepRestoresTheRegistersAndSparesMemory : Prop :=
  ∀ (s : State) (rest : List Action), s.script = .reset :: rest →
    ∃ t, step s = .next t ∧ (∀ r, readReg r t = readReg r State.reset) ∧ (∀ i, instAt t i = none) ∧ t.busy = false ∧
      t.script = rest ∧ t.platform = s.platform ∧
      (∀ a, (∀ j, s.engine = some j → a ∉ j.dsetBytes) → t.mem.read a = s.mem.read a)

/-- 60_exceptions R249: when BUSY = 0 and the host has nothing left to do, the block takes no step of its own and holds its state. -/
def Obligations.IdleBlockHoldsItsState : Prop :=
  ∀ s : State, s.busy = false → s.script = [] → step s = .next s

/-- The invariant holds at reset: memory in canonical form, no RENDER in progress. -/
def Obligations.InvariantHoldsAtReset : Prop := Inv State.reset ∧ RenderProgress State.reset

/-- Every step, of whichever agent, keeps the invariant: memory stays in canonical form, a RENDER in progress stays coherent (10_state R41,
44_render R202), and DONE and ERR read 0 while it runs (10_state R25). -/
def Obligations.EveryStepKeepsTheInvariant : Prop :=
  ∀ s t : State, Inv s → step s = .next t → Inv t

/-- 44_render R204, R215: every step, of whichever agent and in whatever interleaving, keeps a RENDER on its way to its result: the
destination bytes of finished blocks hold their final value and the others their value at acceptance, as long as its result is defined.
That a step that meets an access the platform refuses (20_memory R72) leaves the bytes of that block at their old value is the model's
reading (log 8). -/
def Obligations.EveryStepKeepsTheRenderProgress : Prop :=
  ∀ s t : State, Inv s → RenderProgress s → step s = .next t → RenderProgress t
end

