-- ==== Sys2Proof/Laws/Blend.lean ====
section
/-! SUPPORT. The channels of the masked terms the blends are made of (40_blend R111 to R113), and that a word is the sum of its
channels. -/

namespace Sys2Proof.Machine

theorem testBit_channel (v : Word) (lo w i : Nat) :
    (channel v (lo, w)).testBit i = (decide (i < w) && v.getLsbD (lo + i)) := by
  rw [channel, Nat.testBit_mod_two_pow, Nat.testBit_div_two_pow, BitVec.testBit_toNat, Nat.add_comm]

theorem channel_lt (v : Word) (ch : Nat × Nat) : channel v ch < 2 ^ ch.2 := Nat.mod_lt _ (by positivity)

/-- The masks on the bits of one channel, the two bits above it included (40_blend R111). -/
theorem maskH2_bits : ∀ f : Format, ∀ ch ∈ channels f, ∀ i < ch.2 + 1,
    (maskH2 f).getLsbD (ch.1 + i) = (decide (1 ≤ i) && decide (i < ch.2)) := by
  intro f; cases f <;> decide

theorem maskL2_bits : ∀ f : Format, ∀ ch ∈ channels f, ∀ i < ch.2, (maskL2 f).getLsbD (ch.1 + i) = decide (i = 0) := by
  intro f; cases f <;> decide

theorem maskH4_bits : ∀ f : Format, ∀ ch ∈ channels f, ∀ i < ch.2 + 2,
    (maskH4 f).getLsbD (ch.1 + i) = (decide (2 ≤ i) && decide (i < ch.2)) := by
  intro f; cases f <;> decide

theorem maskL4_bits : ∀ f : Format, ∀ ch ∈ channels f, ∀ i < ch.2, (maskL4 f).getLsbD (ch.1 + i) = decide (i < 2) := by
  intro f; cases f <;> decide

/-- The halved upper part of a channel. -/
theorem channel_half (f : Format) (a : Word) {ch : Nat × Nat} (h : ch ∈ channels f) :
    channel ((a &&& maskH2 f) >>> 1) ch = channel a ch / 2 := by
  obtain ⟨lo, w⟩ := ch
  refine Nat.eq_of_testBit_eq fun i => ?_
  rw [testBit_channel, ← pow_one 2, Nat.testBit_div_two_pow, testBit_channel]
  by_cases hi : i < w
  · have hm := maskH2_bits f _ h (i + 1) (by omega)
    simp only [BitVec.getLsbD_ushiftRight, BitVec.getLsbD_and]
    rw [show 1 + (lo + i) = lo + (i + 1) by omega, hm]
    by_cases hi' : i + 1 < w <;> simp [hi, hi']
  · simp [hi, show ¬ i + 1 < w by omega]

/-- The quartered upper part of a channel. -/
theorem channel_quarter (f : Format) (a : Word) {ch : Nat × Nat} (h : ch ∈ channels f) :
    channel ((a &&& maskH4 f) >>> 2) ch = channel a ch / 4 := by
  obtain ⟨lo, w⟩ := ch
  refine Nat.eq_of_testBit_eq fun i => ?_
  rw [testBit_channel, show (4 : Nat) = 2 ^ 2 by rfl, Nat.testBit_div_two_pow, testBit_channel]
  by_cases hi : i < w
  · have hm := maskH4_bits f _ h (i + 2) (by omega)
    simp only [BitVec.getLsbD_ushiftRight, BitVec.getLsbD_and]
    rw [show 2 + (lo + i) = lo + (i + 2) by omega, hm]
    by_cases hi' : i + 2 < w <;> simp [hi, hi']
  · simp [hi, show ¬ i + 2 < w by omega]

/-- The low bit two channels share. -/
theorem channel_sharedLow (f : Format) (a b : Word) {ch : Nat × Nat} (h : ch ∈ channels f) :
    channel (a &&& b &&& maskL2 f) ch = channel a ch % 2 * (channel b ch % 2) := by
  obtain ⟨lo, w⟩ := ch
  have hb : channel (a &&& b &&& maskL2 f) (lo, w) = (channel a (lo, w) &&& channel b (lo, w)) % 2 ^ 1 := by
    refine Nat.eq_of_testBit_eq fun i => ?_
    rw [testBit_channel, Nat.testBit_mod_two_pow, Nat.testBit_and, testBit_channel, testBit_channel]
    by_cases hi : i < w
    · have hm := maskL2_bits f _ h i hi
      simp only [BitVec.getLsbD_and, hm, hi]
      by_cases h0 : i = 0 <;> simp [h0]
    · simp [hi]
  rw [hb, Nat.and_mod_two_pow]
  rcases Nat.mod_two_eq_zero_or_one (channel a (lo, w)) with h1 | h1 <;>
    rcases Nat.mod_two_eq_zero_or_one (channel b (lo, w)) with h2 | h2 <;> simp [h1, h2]

/-- The low two bits of a channel. -/
theorem channel_low4 (f : Format) (a : Word) {ch : Nat × Nat} (h : ch ∈ channels f) :
    channel (a &&& maskL4 f) ch = channel a ch % 4 := by
  obtain ⟨lo, w⟩ := ch
  refine Nat.eq_of_testBit_eq fun i => ?_
  rw [testBit_channel, show (4 : Nat) = 2 ^ 2 by rfl, Nat.testBit_mod_two_pow, testBit_channel]
  by_cases hi : i < w
  · have hm := maskL4_bits f _ h i hi
    by_cases h2 : i < 2 <;> simp [BitVec.getLsbD_and, hm, hi, h2]
  · simp [hi]

/-- The quartered sum of low parts: two bits of a channel. -/
theorem channel_carry4 (f : Format) (v : Word) {ch : Nat × Nat} (h : ch ∈ channels f) (hv : channel v ch < 16) :
    channel (v >>> 2 &&& maskL4 f) ch = channel v ch / 4 := by
  obtain ⟨lo, w⟩ := ch
  have hw : 4 ≤ w := by cases f <;> simp [channels] at h <;> omega
  have e : channel v (lo, w) / 4 = channel v (lo, w) / 2 ^ 2 % 2 ^ 2 := by omega
  rw [e]
  refine Nat.eq_of_testBit_eq fun i => ?_
  rw [testBit_channel, Nat.testBit_mod_two_pow, Nat.testBit_div_two_pow, testBit_channel]
  by_cases hi : i < w
  · have hm := maskL4_bits f _ h i hi
    by_cases h2 : i < 2
    · simp [BitVec.getLsbD_and, hm, hi, h2, show i + 2 < w by omega, show 2 + (lo + i) = lo + (i + 2) by omega]
    · simp [BitVec.getLsbD_and, hm, h2]
  · simp [hi, show ¬ i < 2 by omega]

/-- A word is the sum of its bytes. -/
theorem toNat_eq_channels_xrgb (v : Word) : v.toNat =
    channel v (0, 8) + 2 ^ 8 * channel v (8, 8) + 2 ^ 16 * channel v (16, 8) + 2 ^ 24 * channel v (24, 8) := by
  have := v.isLt
  simp only [channel]
  omega

/-- A 16-bit element is the sum of its three channels. -/
theorem toNat_eq_channels_rgb (v : Word) (h : v.toNat < 2 ^ 16) : v.toNat =
    channel v (0, 5) + 2 ^ 5 * channel v (5, 6) + 2 ^ 11 * channel v (11, 5) := by
  simp only [channel]
  omega

theorem isElement_iff (f : Format) (v : Word) : IsElement f v ↔ v.toNat < 2 ^ (8 * esz f) := by
  cases f
  · simp [IsElement, px, esz, v.isLt]
  · simp only [IsElement, px, esz, BitVec.toNat_eq, BitVec.toNat_setWidth]
    have := v.isLt
    omega

@[simp] theorem px_px (f : Format) (v : Word) : px f (px f v) = px f v := by
  cases f
  · rfl
  · simp only [px, BitVec.toNat_eq, BitVec.toNat_setWidth]
    omega

/-- Taking an element of a register keeps its channels. -/
theorem channel_px (f : Format) (v : Word) {ch : Nat × Nat} (h : ch ∈ channels f) : channel (px f v) ch = channel v ch := by
  cases f
  · rfl
  · simp only [channels, List.mem_cons, List.not_mem_nil, or_false] at h
    rcases h with rfl | rfl | rfl <;>
      (simp only [channel, px, BitVec.toNat_setWidth]; have := v.isLt; omega)

theorem toNat_and_le (a b : Word) : (a &&& b).toNat ≤ b.toNat := by
  rw [BitVec.toNat_and]; exact Nat.and_le_right

/-- Four bytes put together give each byte back. -/
theorem split_bytes {v p q r t : Nat} (hp : p < 256) (hq : q < 256) (hr : r < 256) (ht : t < 256)
    (hv : v = p + 2 ^ 8 * q + 2 ^ 16 * r + 2 ^ 24 * t) :
    v < 2 ^ 32 ∧ v / 2 ^ 0 % 2 ^ 8 = p ∧ v / 2 ^ 8 % 2 ^ 8 = q ∧ v / 2 ^ 16 % 2 ^ 8 = r ∧ v / 2 ^ 24 % 2 ^ 8 = t := by
  subst hv
  refine ⟨?_, ?_, ?_, ?_, ?_⟩ <;> omega

/-- The three channels of an RGB565 element put together give each channel back. -/
theorem split_rgb {v p q r : Nat} (hp : p < 32) (hq : q < 64) (hr : r < 32) (hv : v = p + 2 ^ 5 * q + 2 ^ 11 * r) :
    v < 2 ^ 16 ∧ v / 2 ^ 0 % 2 ^ 5 = p ∧ v / 2 ^ 5 % 2 ^ 6 = q ∧ v / 2 ^ 11 % 2 ^ 5 = r := by
  subst hv
  refine ⟨?_, ?_, ?_, ?_⟩ <;> omega

/-- Elements whose channels add up without a carry add up channel by channel (40_blend R112, R113: no carry crosses a boundary). -/
theorem channel_add (f : Format) {x y : Word} (hx : IsElement f x) (hy : IsElement f y)
    (h : ∀ ch ∈ channels f, channel x ch + channel y ch < 2 ^ ch.2) :
    IsElement f (x + y) ∧ ∀ ch ∈ channels f, channel (x + y) ch = channel x ch + channel y ch := by
  rw [isElement_iff] at hx hy ⊢
  cases f
  · have h0 := h (0, 8) (by decide)
    have h1 := h (8, 8) (by decide)
    have h2 := h (16, 8) (by decide)
    have h3 := h (24, 8) (by decide)
    have e : x.toNat + y.toNat = (channel x (0, 8) + channel y (0, 8)) + 2 ^ 8 * (channel x (8, 8) + channel y (8, 8)) +
        2 ^ 16 * (channel x (16, 8) + channel y (16, 8)) + 2 ^ 24 * (channel x (24, 8) + channel y (24, 8)) := by
      rw [toNat_eq_channels_xrgb x, toNat_eq_channels_xrgb y]; ring
    obtain ⟨hlt, e0, e1, e2, e3⟩ := split_bytes h0 h1 h2 h3 e
    have ts : (x + y).toNat = x.toNat + y.toNat := by rw [BitVec.toNat_add, Nat.mod_eq_of_lt hlt]
    refine ⟨(x + y).isLt, fun ch hc => ?_⟩
    simp only [channels, List.mem_cons, List.not_mem_nil, or_false] at hc
    rw [channel, ts]
    rcases hc with rfl | rfl | rfl | rfl
    exacts [e0, e1, e2, e3]
  · have h0 := h (0, 5) (by decide)
    have h1 := h (5, 6) (by decide)
    have h2 := h (11, 5) (by decide)
    have e : x.toNat + y.toNat = (channel x (0, 5) + channel y (0, 5)) + 2 ^ 5 * (channel x (5, 6) + channel y (5, 6)) +
        2 ^ 11 * (channel x (11, 5) + channel y (11, 5)) := by
      rw [toNat_eq_channels_rgb x hx, toNat_eq_channels_rgb y hy]; ring
    obtain ⟨hlt, e0, e1, e2⟩ := split_rgb h0 h1 h2 e
    have ts : (x + y).toNat = x.toNat + y.toNat := by
      rw [BitVec.toNat_add, Nat.mod_eq_of_lt (hlt.trans (by decide))]
    refine ⟨by rw [ts]; exact hlt, fun ch hc => ?_⟩
    simp only [channels, List.mem_cons, List.not_mem_nil, or_false] at hc
    rw [channel, ts]
    rcases hc with rfl | rfl | rfl
    exacts [e0, e1, e2]

/-- A part of a word under a mask of the format is an element. -/
theorem isElement_of_mask (f : Format) {m : Word} (a : Word) (n : Nat) (hm : IsElement f m) : IsElement f ((a &&& m) >>> n) := by
  rw [isElement_iff] at hm ⊢
  have h := toNat_and_le a m
  have h' : ((a &&& m) >>> n).toNat ≤ (a &&& m).toNat := by
    rw [BitVec.toNat_ushiftRight, Nat.shiftRight_eq_div_pow]; exact Nat.div_le_self _ _
  omega

theorem isElement_masks (f : Format) :
    IsElement f (maskH2 f) ∧ IsElement f (maskL2 f) ∧ IsElement f (maskH4 f) ∧ IsElement f (maskL4 f) := by
  cases f <;> decide

/-- Elements with the same channels are equal. -/
theorem element_ext (f : Format) {x y : Word} (hx : IsElement f x) (hy : IsElement f y)
    (h : ∀ ch ∈ channels f, channel x ch = channel y ch) : x = y := by
  rw [isElement_iff] at hx hy
  refine BitVec.eq_of_toNat_eq ?_
  cases f
  · rw [toNat_eq_channels_xrgb x, toNat_eq_channels_xrgb y, h (0, 8) (by decide), h (8, 8) (by decide), h (16, 8) (by decide),
      h (24, 8) (by decide)]
  · rw [toNat_eq_channels_rgb x hx, toNat_eq_channels_rgb y hy, h (0, 5) (by decide), h (5, 6) (by decide), h (11, 5) (by decide)]

/-- The floor average of two numbers from their halves and the low bit they share. -/
theorem avg2 (p q : Nat) : p / 2 + q / 2 + p % 2 * (q % 2) = (p + q) / 2 := by
  rcases Nat.mod_two_eq_zero_or_one p with h1 | h1 <;> rcases Nat.mod_two_eq_zero_or_one q with h2 | h2 <;> simp [h1, h2] <;> omega

/-- A word under a mask of the format is an element. -/
theorem isElement_and (f : Format) {m : Word} (a : Word) (hm : IsElement f m) : IsElement f (a &&& m) := by
  simpa using isElement_of_mask f a 0 hm

/-- Every channel is at least five bits wide. -/
theorem pow_ch (f : Format) : ∀ ch ∈ channels f, 2 ^ 5 ≤ 2 ^ ch.2 ∧ 2 ^ ch.2 % 4 = 0 := by cases f <;> decide

/-- What blend2 gives: an element, each channel the floor average of the two (40_blend R114). -/
theorem blend2_channel (f : Format) (a b : Word) : IsElement f (blend2 f a b) ∧ ∀ ch ∈ channels f,
    channel (blend2 f a b) ch = (channel a ch + channel b ch) / 2 := by
  obtain ⟨m1, m2, -, -⟩ := isElement_masks f
  have s1 := channel_add f (isElement_of_mask f a 1 m1) (isElement_of_mask f b 1 m1) (fun ch h => by
    rw [channel_half f a h, channel_half f b h]
    have := channel_lt a ch; have := channel_lt b ch; omega)
  have hs2 : ∀ ch ∈ channels f, channel (((a &&& maskH2 f) >>> 1) + ((b &&& maskH2 f) >>> 1)) ch + channel (a &&& b &&& maskL2 f) ch = (channel a ch + channel b ch) / 2 := fun ch h => by
    rw [s1.2 ch h, channel_half f a h, channel_half f b h, channel_sharedLow f a b h, avg2]
  have s2 := channel_add f s1.1 (isElement_and f (a &&& b) m2) (fun ch h => by
    rw [hs2 ch h]
    have := channel_lt a ch; have := channel_lt b ch; omega)
  exact ⟨s2.1, fun ch h => (s2.2 ch h).trans (hs2 ch h)⟩

/-- What blend4 gives: an element, each channel the floor average of the four (40_blend R114). -/
theorem blend4_channel (f : Format) (a b c d : Word) : IsElement f (blend4 f a b c d) ∧ ∀ ch ∈ channels f,
    channel (blend4 f a b c d) ch = (channel a ch + channel b ch + channel c ch + channel d ch) / 4 := by
  obtain ⟨-, -, m1, m2⟩ := isElement_masks f
  have lt := fun (v : Word) ch => channel_lt v ch
  have q := fun v ch (h : ch ∈ channels f) => channel_quarter f v h
  have l := fun v ch (h : ch ∈ channels f) => channel_low4 f v h
  have h1 := channel_add f (isElement_of_mask f a 2 m1) (isElement_of_mask f b 2 m1) (fun ch h => by
    rw [q a ch h, q b ch h]; have := lt a ch; have := lt b ch; omega)
  have h2 := channel_add f h1.1 (isElement_of_mask f c 2 m1) (fun ch h => by
    rw [h1.2 ch h, q a ch h, q b ch h, q c ch h]; have := lt a ch; have := lt b ch; have := lt c ch; omega)
  have h3 := channel_add f h2.1 (isElement_of_mask f d 2 m1) (fun ch h => by
    rw [h2.2 ch h, h1.2 ch h, q a ch h, q b ch h, q c ch h, q d ch h]
    have := lt a ch; have := lt b ch; have := lt c ch; have := lt d ch
    have := pow_ch f ch h; omega)
  have l1 := channel_add f (isElement_and f a m2) (isElement_and f b m2) (fun ch h => by
    rw [l a ch h, l b ch h]; have := pow_ch f ch h; omega)
  have l2 := channel_add f l1.1 (isElement_and f c m2) (fun ch h => by
    rw [l1.2 ch h, l a ch h, l b ch h, l c ch h]; have := pow_ch f ch h; omega)
  have l3 := channel_add f l2.1 (isElement_and f d m2) (fun ch h => by
    rw [l2.2 ch h, l1.2 ch h, l a ch h, l b ch h, l c ch h, l d ch h]; have := pow_ch f ch h; omega)
  have lv : ∀ ch ∈ channels f, channel ((a &&& maskL4 f) + (b &&& maskL4 f) + (c &&& maskL4 f) + (d &&& maskL4 f)) ch =
      channel a ch % 4 + channel b ch % 4 + channel c ch % 4 + channel d ch % 4 := fun ch h => by
    rw [l3.2 ch h, l2.2 ch h, l1.2 ch h, l a ch h, l b ch h, l c ch h, l d ch h]
  have carry := fun ch h => channel_carry4 f ((a &&& maskL4 f) + (b &&& maskL4 f) + (c &&& maskL4 f) + (d &&& maskL4 f)) (ch := ch) h (by rw [lv ch h]; omega)
  have tot : ∀ ch ∈ channels f,
      channel (((a &&& maskH4 f) >>> 2) + ((b &&& maskH4 f) >>> 2) + ((c &&& maskH4 f) >>> 2) + ((d &&& maskH4 f) >>> 2)) ch +
        channel (((a &&& maskL4 f) + (b &&& maskL4 f) + (c &&& maskL4 f) + (d &&& maskL4 f)) >>> 2 &&& maskL4 f) ch =
      (channel a ch + channel b ch + channel c ch + channel d ch) / 4 := fun ch h => by
    rw [h3.2 ch h, h2.2 ch h, h1.2 ch h, q a ch h, q b ch h, q c ch h, q d ch h, carry ch h, lv ch h]; omega
  have s := channel_add f h3.1 (isElement_and f _ m2) (fun ch h => by
    rw [tot ch h]; have := lt a ch; have := lt b ch; have := lt c ch; have := lt d ch; omega)
  exact ⟨s.1, fun ch h => (s.2 ch h).trans (tot ch h)⟩

end Sys2Proof.Machine
end

