-- ==== Sys2Proof/Laws/State.lean ====
section
/-! SUPPORT. Each field of State under each named update, so that no proof unfolds a record update. -/

namespace Sys2Proof.Machine

@[simp] theorem fail_eq (err : Err) (s : State) : fail err s = complete err s := rfl

@[simp] theorem failCreate_eq (err : Err) (s : State) : failCreate err s = complete err { s with result := 0xFFFFFFFF#32 } := rfl

/-! ### complete -/

@[simp] theorem complete_ctrlClamp (err : Err) (s : State) : (complete err s).ctrlClamp = s.ctrlClamp := rfl
@[simp] theorem complete_ctrlIe (err : Err) (s : State) : (complete err s).ctrlIe = s.ctrlIe := rfl
@[simp] theorem complete_statusDone (err : Err) (s : State) : (complete err s).statusDone = true := rfl
@[simp] theorem complete_statusOvr (err : Err) (s : State) : (complete err s).statusOvr = s.statusOvr := rfl
@[simp] theorem complete_statusErr (err : Err) (s : State) : (complete err s).statusErr = err := rfl
@[simp] theorem complete_cmd (err : Err) (s : State) : (complete err s).cmd = s.cmd := rfl
@[simp] theorem complete_result (err : Err) (s : State) : (complete err s).result = s.result := rfl
@[simp] theorem complete_slots (err : Err) (s : State) : (complete err s).slots = s.slots := rfl
@[simp] theorem complete_srcAddr (err : Err) (s : State) : (complete err s).srcAddr = s.srcAddr := rfl
@[simp] theorem complete_srcStride (err : Err) (s : State) : (complete err s).srcStride = s.srcStride := rfl
@[simp] theorem complete_dstAddr (err : Err) (s : State) : (complete err s).dstAddr = s.dstAddr := rfl
@[simp] theorem complete_dstStride (err : Err) (s : State) : (complete err s).dstStride = s.dstStride := rfl
@[simp] theorem complete_width (err : Err) (s : State) : (complete err s).width = s.width := rfl
@[simp] theorem complete_height (err : Err) (s : State) : (complete err s).height = s.height := rfl
@[simp] theorem complete_outw (err : Err) (s : State) : (complete err s).outw = s.outw := rfl
@[simp] theorem complete_outh (err : Err) (s : State) : (complete err s).outh = s.outh := rfl
@[simp] theorem complete_opa (err : Err) (s : State) : (complete err s).opa = s.opa := rfl
@[simp] theorem complete_opb (err : Err) (s : State) : (complete err s).opb = s.opb := rfl
@[simp] theorem complete_opc (err : Err) (s : State) : (complete err s).opc = s.opc := rfl
@[simp] theorem complete_opd (err : Err) (s : State) : (complete err s).opd = s.opd := rfl
@[simp] theorem complete_win (err : Err) (s : State) : (complete err s).win = s.win := rfl
@[simp] theorem complete_p0 (err : Err) (s : State) : (complete err s).p0 = s.p0 := rfl
@[simp] theorem complete_p1 (err : Err) (s : State) : (complete err s).p1 = s.p1 := rfl
@[simp] theorem complete_p2 (err : Err) (s : State) : (complete err s).p2 = s.p2 := rfl
@[simp] theorem complete_p3 (err : Err) (s : State) : (complete err s).p3 = s.p3 := rfl
@[simp] theorem complete_engine (err : Err) (s : State) : (complete err s).engine = none := rfl
@[simp] theorem complete_mem (err : Err) (s : State) : (complete err s).mem = s.mem := rfl
@[simp] theorem complete_platform (err : Err) (s : State) : (complete err s).platform = s.platform := rfl
@[simp] theorem complete_script (err : Err) (s : State) : (complete err s).script = s.script := rfl
@[simp] theorem complete_hostData (err : Err) (s : State) : (complete err s).hostData = s.hostData := rfl
@[simp] theorem complete_draws (err : Err) (s : State) : (complete err s).draws = s.draws := rfl

/-! ### accept -/

@[simp] theorem accept_ctrlClamp (c : Word) (s : State) : (accept c s).ctrlClamp = s.ctrlClamp := rfl
@[simp] theorem accept_ctrlIe (c : Word) (s : State) : (accept c s).ctrlIe = s.ctrlIe := rfl
@[simp] theorem accept_statusDone (c : Word) (s : State) : (accept c s).statusDone = false := rfl
@[simp] theorem accept_statusOvr (c : Word) (s : State) : (accept c s).statusOvr = s.statusOvr := rfl
@[simp] theorem accept_statusErr (c : Word) (s : State) : (accept c s).statusErr = Err.eNone := rfl
@[simp] theorem accept_cmd (c : Word) (s : State) : (accept c s).cmd = c := rfl
@[simp] theorem accept_result (c : Word) (s : State) : (accept c s).result = s.result := rfl
@[simp] theorem accept_slots (c : Word) (s : State) : (accept c s).slots = s.slots := rfl
@[simp] theorem accept_srcAddr (c : Word) (s : State) : (accept c s).srcAddr = s.srcAddr := rfl
@[simp] theorem accept_srcStride (c : Word) (s : State) : (accept c s).srcStride = s.srcStride := rfl
@[simp] theorem accept_dstAddr (c : Word) (s : State) : (accept c s).dstAddr = s.dstAddr := rfl
@[simp] theorem accept_dstStride (c : Word) (s : State) : (accept c s).dstStride = s.dstStride := rfl
@[simp] theorem accept_width (c : Word) (s : State) : (accept c s).width = s.width := rfl
@[simp] theorem accept_height (c : Word) (s : State) : (accept c s).height = s.height := rfl
@[simp] theorem accept_outw (c : Word) (s : State) : (accept c s).outw = s.outw := rfl
@[simp] theorem accept_outh (c : Word) (s : State) : (accept c s).outh = s.outh := rfl
@[simp] theorem accept_opa (c : Word) (s : State) : (accept c s).opa = s.opa := rfl
@[simp] theorem accept_opb (c : Word) (s : State) : (accept c s).opb = s.opb := rfl
@[simp] theorem accept_opc (c : Word) (s : State) : (accept c s).opc = s.opc := rfl
@[simp] theorem accept_opd (c : Word) (s : State) : (accept c s).opd = s.opd := rfl
@[simp] theorem accept_win (c : Word) (s : State) : (accept c s).win = s.win := rfl
@[simp] theorem accept_p0 (c : Word) (s : State) : (accept c s).p0 = s.p0 := rfl
@[simp] theorem accept_p1 (c : Word) (s : State) : (accept c s).p1 = s.p1 := rfl
@[simp] theorem accept_p2 (c : Word) (s : State) : (accept c s).p2 = s.p2 := rfl
@[simp] theorem accept_p3 (c : Word) (s : State) : (accept c s).p3 = s.p3 := rfl
@[simp] theorem accept_engine (c : Word) (s : State) : (accept c s).engine = s.engine := rfl
@[simp] theorem accept_mem (c : Word) (s : State) : (accept c s).mem = s.mem := rfl
@[simp] theorem accept_platform (c : Word) (s : State) : (accept c s).platform = s.platform := rfl
@[simp] theorem accept_script (c : Word) (s : State) : (accept c s).script = s.script := rfl
@[simp] theorem accept_hostData (c : Word) (s : State) : (accept c s).hostData = s.hostData := rfl
@[simp] theorem accept_draws (c : Word) (s : State) : (accept c s).draws = s.draws := rfl

/-! ### dropRequest -/

@[simp] theorem dropRequest_ctrlClamp (s : State) : (dropRequest s).ctrlClamp = s.ctrlClamp := rfl
@[simp] theorem dropRequest_ctrlIe (s : State) : (dropRequest s).ctrlIe = s.ctrlIe := rfl
@[simp] theorem dropRequest_statusDone (s : State) : (dropRequest s).statusDone = s.statusDone := rfl
@[simp] theorem dropRequest_statusOvr (s : State) : (dropRequest s).statusOvr = true := rfl
@[simp] theorem dropRequest_statusErr (s : State) : (dropRequest s).statusErr = s.statusErr := rfl
@[simp] theorem dropRequest_cmd (s : State) : (dropRequest s).cmd = s.cmd := rfl
@[simp] theorem dropRequest_result (s : State) : (dropRequest s).result = s.result := rfl
@[simp] theorem dropRequest_slots (s : State) : (dropRequest s).slots = s.slots := rfl
@[simp] theorem dropRequest_srcAddr (s : State) : (dropRequest s).srcAddr = s.srcAddr := rfl
@[simp] theorem dropRequest_srcStride (s : State) : (dropRequest s).srcStride = s.srcStride := rfl
@[simp] theorem dropRequest_dstAddr (s : State) : (dropRequest s).dstAddr = s.dstAddr := rfl
@[simp] theorem dropRequest_dstStride (s : State) : (dropRequest s).dstStride = s.dstStride := rfl
@[simp] theorem dropRequest_width (s : State) : (dropRequest s).width = s.width := rfl
@[simp] theorem dropRequest_height (s : State) : (dropRequest s).height = s.height := rfl
@[simp] theorem dropRequest_outw (s : State) : (dropRequest s).outw = s.outw := rfl
@[simp] theorem dropRequest_outh (s : State) : (dropRequest s).outh = s.outh := rfl
@[simp] theorem dropRequest_opa (s : State) : (dropRequest s).opa = s.opa := rfl
@[simp] theorem dropRequest_opb (s : State) : (dropRequest s).opb = s.opb := rfl
@[simp] theorem dropRequest_opc (s : State) : (dropRequest s).opc = s.opc := rfl
@[simp] theorem dropRequest_opd (s : State) : (dropRequest s).opd = s.opd := rfl
@[simp] theorem dropRequest_win (s : State) : (dropRequest s).win = s.win := rfl
@[simp] theorem dropRequest_p0 (s : State) : (dropRequest s).p0 = s.p0 := rfl
@[simp] theorem dropRequest_p1 (s : State) : (dropRequest s).p1 = s.p1 := rfl
@[simp] theorem dropRequest_p2 (s : State) : (dropRequest s).p2 = s.p2 := rfl
@[simp] theorem dropRequest_p3 (s : State) : (dropRequest s).p3 = s.p3 := rfl
@[simp] theorem dropRequest_engine (s : State) : (dropRequest s).engine = s.engine := rfl
@[simp] theorem dropRequest_mem (s : State) : (dropRequest s).mem = s.mem := rfl
@[simp] theorem dropRequest_platform (s : State) : (dropRequest s).platform = s.platform := rfl
@[simp] theorem dropRequest_script (s : State) : (dropRequest s).script = s.script := rfl
@[simp] theorem dropRequest_hostData (s : State) : (dropRequest s).hostData = s.hostData := rfl
@[simp] theorem dropRequest_draws (s : State) : (dropRequest s).draws = s.draws := rfl

/-! ### setSlot -/

@[simp] theorem setSlot_ctrlClamp (i : Nat) (inst : Option Inst) (s : State) : (setSlot i inst s).ctrlClamp = s.ctrlClamp := rfl
@[simp] theorem setSlot_ctrlIe (i : Nat) (inst : Option Inst) (s : State) : (setSlot i inst s).ctrlIe = s.ctrlIe := rfl
@[simp] theorem setSlot_statusDone (i : Nat) (inst : Option Inst) (s : State) : (setSlot i inst s).statusDone = s.statusDone := rfl
@[simp] theorem setSlot_statusOvr (i : Nat) (inst : Option Inst) (s : State) : (setSlot i inst s).statusOvr = s.statusOvr := rfl
@[simp] theorem setSlot_statusErr (i : Nat) (inst : Option Inst) (s : State) : (setSlot i inst s).statusErr = s.statusErr := rfl
@[simp] theorem setSlot_cmd (i : Nat) (inst : Option Inst) (s : State) : (setSlot i inst s).cmd = s.cmd := rfl
@[simp] theorem setSlot_result (i : Nat) (inst : Option Inst) (s : State) : (setSlot i inst s).result = s.result := rfl
@[simp] theorem setSlot_slots (i : Nat) (inst : Option Inst) (s : State) : (setSlot i inst s).slots = s.slots.setIfInBounds i inst := rfl
@[simp] theorem setSlot_srcAddr (i : Nat) (inst : Option Inst) (s : State) : (setSlot i inst s).srcAddr = s.srcAddr := rfl
@[simp] theorem setSlot_srcStride (i : Nat) (inst : Option Inst) (s : State) : (setSlot i inst s).srcStride = s.srcStride := rfl
@[simp] theorem setSlot_dstAddr (i : Nat) (inst : Option Inst) (s : State) : (setSlot i inst s).dstAddr = s.dstAddr := rfl
@[simp] theorem setSlot_dstStride (i : Nat) (inst : Option Inst) (s : State) : (setSlot i inst s).dstStride = s.dstStride := rfl
@[simp] theorem setSlot_width (i : Nat) (inst : Option Inst) (s : State) : (setSlot i inst s).width = s.width := rfl
@[simp] theorem setSlot_height (i : Nat) (inst : Option Inst) (s : State) : (setSlot i inst s).height = s.height := rfl
@[simp] theorem setSlot_outw (i : Nat) (inst : Option Inst) (s : State) : (setSlot i inst s).outw = s.outw := rfl
@[simp] theorem setSlot_outh (i : Nat) (inst : Option Inst) (s : State) : (setSlot i inst s).outh = s.outh := rfl
@[simp] theorem setSlot_opa (i : Nat) (inst : Option Inst) (s : State) : (setSlot i inst s).opa = s.opa := rfl
@[simp] theorem setSlot_opb (i : Nat) (inst : Option Inst) (s : State) : (setSlot i inst s).opb = s.opb := rfl
@[simp] theorem setSlot_opc (i : Nat) (inst : Option Inst) (s : State) : (setSlot i inst s).opc = s.opc := rfl
@[simp] theorem setSlot_opd (i : Nat) (inst : Option Inst) (s : State) : (setSlot i inst s).opd = s.opd := rfl
@[simp] theorem setSlot_win (i : Nat) (inst : Option Inst) (s : State) : (setSlot i inst s).win = s.win := rfl
@[simp] theorem setSlot_p0 (i : Nat) (inst : Option Inst) (s : State) : (setSlot i inst s).p0 = s.p0 := rfl
@[simp] theorem setSlot_p1 (i : Nat) (inst : Option Inst) (s : State) : (setSlot i inst s).p1 = s.p1 := rfl
@[simp] theorem setSlot_p2 (i : Nat) (inst : Option Inst) (s : State) : (setSlot i inst s).p2 = s.p2 := rfl
@[simp] theorem setSlot_p3 (i : Nat) (inst : Option Inst) (s : State) : (setSlot i inst s).p3 = s.p3 := rfl
@[simp] theorem setSlot_engine (i : Nat) (inst : Option Inst) (s : State) : (setSlot i inst s).engine = s.engine := rfl
@[simp] theorem setSlot_mem (i : Nat) (inst : Option Inst) (s : State) : (setSlot i inst s).mem = s.mem := rfl
@[simp] theorem setSlot_platform (i : Nat) (inst : Option Inst) (s : State) : (setSlot i inst s).platform = s.platform := rfl
@[simp] theorem setSlot_script (i : Nat) (inst : Option Inst) (s : State) : (setSlot i inst s).script = s.script := rfl
@[simp] theorem setSlot_hostData (i : Nat) (inst : Option Inst) (s : State) : (setSlot i inst s).hostData = s.hostData := rfl
@[simp] theorem setSlot_draws (i : Nat) (inst : Option Inst) (s : State) : (setSlot i inst s).draws = s.draws := rfl

/-! ### setBlock -/

@[simp] theorem setBlock_ctrlClamp (b : Block) (s : State) : (setBlock b s).ctrlClamp = s.ctrlClamp := rfl
@[simp] theorem setBlock_ctrlIe (b : Block) (s : State) : (setBlock b s).ctrlIe = s.ctrlIe := rfl
@[simp] theorem setBlock_statusDone (b : Block) (s : State) : (setBlock b s).statusDone = s.statusDone := rfl
@[simp] theorem setBlock_statusOvr (b : Block) (s : State) : (setBlock b s).statusOvr = s.statusOvr := rfl
@[simp] theorem setBlock_statusErr (b : Block) (s : State) : (setBlock b s).statusErr = s.statusErr := rfl
@[simp] theorem setBlock_cmd (b : Block) (s : State) : (setBlock b s).cmd = s.cmd := rfl
@[simp] theorem setBlock_result (b : Block) (s : State) : (setBlock b s).result = s.result := rfl
@[simp] theorem setBlock_slots (b : Block) (s : State) : (setBlock b s).slots = s.slots := rfl
@[simp] theorem setBlock_srcAddr (b : Block) (s : State) : (setBlock b s).srcAddr = s.srcAddr := rfl
@[simp] theorem setBlock_srcStride (b : Block) (s : State) : (setBlock b s).srcStride = s.srcStride := rfl
@[simp] theorem setBlock_dstAddr (b : Block) (s : State) : (setBlock b s).dstAddr = s.dstAddr := rfl
@[simp] theorem setBlock_dstStride (b : Block) (s : State) : (setBlock b s).dstStride = s.dstStride := rfl
@[simp] theorem setBlock_width (b : Block) (s : State) : (setBlock b s).width = s.width := rfl
@[simp] theorem setBlock_height (b : Block) (s : State) : (setBlock b s).height = s.height := rfl
@[simp] theorem setBlock_outw (b : Block) (s : State) : (setBlock b s).outw = s.outw := rfl
@[simp] theorem setBlock_outh (b : Block) (s : State) : (setBlock b s).outh = s.outh := rfl
@[simp] theorem setBlock_opa (b : Block) (s : State) : (setBlock b s).opa = s.opa := rfl
@[simp] theorem setBlock_opb (b : Block) (s : State) : (setBlock b s).opb = s.opb := rfl
@[simp] theorem setBlock_opc (b : Block) (s : State) : (setBlock b s).opc = s.opc := rfl
@[simp] theorem setBlock_opd (b : Block) (s : State) : (setBlock b s).opd = s.opd := rfl
@[simp] theorem setBlock_win (b : Block) (s : State) : (setBlock b s).win = s.win := rfl
@[simp] theorem setBlock_p0 (b : Block) (s : State) : (setBlock b s).p0 = b.p00 := rfl
@[simp] theorem setBlock_p1 (b : Block) (s : State) : (setBlock b s).p1 = b.p01 := rfl
@[simp] theorem setBlock_p2 (b : Block) (s : State) : (setBlock b s).p2 = b.p10 := rfl
@[simp] theorem setBlock_p3 (b : Block) (s : State) : (setBlock b s).p3 = b.p11 := rfl
@[simp] theorem setBlock_engine (b : Block) (s : State) : (setBlock b s).engine = s.engine := rfl
@[simp] theorem setBlock_mem (b : Block) (s : State) : (setBlock b s).mem = s.mem := rfl
@[simp] theorem setBlock_platform (b : Block) (s : State) : (setBlock b s).platform = s.platform := rfl
@[simp] theorem setBlock_script (b : Block) (s : State) : (setBlock b s).script = s.script := rfl
@[simp] theorem setBlock_hostData (b : Block) (s : State) : (setBlock b s).hostData = s.hostData := rfl
@[simp] theorem setBlock_draws (b : Block) (s : State) : (setBlock b s).draws = s.draws := rfl

/-! ### startEngine -/

@[simp] theorem startEngine_ctrlClamp (inst : Inst) (s : State) : (startEngine inst s).ctrlClamp = s.ctrlClamp := rfl
@[simp] theorem startEngine_ctrlIe (inst : Inst) (s : State) : (startEngine inst s).ctrlIe = s.ctrlIe := rfl
@[simp] theorem startEngine_statusDone (inst : Inst) (s : State) : (startEngine inst s).statusDone = s.statusDone := rfl
@[simp] theorem startEngine_statusOvr (inst : Inst) (s : State) : (startEngine inst s).statusOvr = s.statusOvr := rfl
@[simp] theorem startEngine_statusErr (inst : Inst) (s : State) : (startEngine inst s).statusErr = s.statusErr := rfl
@[simp] theorem startEngine_cmd (inst : Inst) (s : State) : (startEngine inst s).cmd = s.cmd := rfl
@[simp] theorem startEngine_result (inst : Inst) (s : State) : (startEngine inst s).result = s.result := rfl
@[simp] theorem startEngine_slots (inst : Inst) (s : State) : (startEngine inst s).slots = s.slots := rfl
@[simp] theorem startEngine_srcAddr (inst : Inst) (s : State) : (startEngine inst s).srcAddr = s.srcAddr := rfl
@[simp] theorem startEngine_srcStride (inst : Inst) (s : State) : (startEngine inst s).srcStride = s.srcStride := rfl
@[simp] theorem startEngine_dstAddr (inst : Inst) (s : State) : (startEngine inst s).dstAddr = s.dstAddr := rfl
@[simp] theorem startEngine_dstStride (inst : Inst) (s : State) : (startEngine inst s).dstStride = s.dstStride := rfl
@[simp] theorem startEngine_width (inst : Inst) (s : State) : (startEngine inst s).width = s.width := rfl
@[simp] theorem startEngine_height (inst : Inst) (s : State) : (startEngine inst s).height = s.height := rfl
@[simp] theorem startEngine_outw (inst : Inst) (s : State) : (startEngine inst s).outw = s.outw := rfl
@[simp] theorem startEngine_outh (inst : Inst) (s : State) : (startEngine inst s).outh = s.outh := rfl
@[simp] theorem startEngine_opa (inst : Inst) (s : State) : (startEngine inst s).opa = s.opa := rfl
@[simp] theorem startEngine_opb (inst : Inst) (s : State) : (startEngine inst s).opb = s.opb := rfl
@[simp] theorem startEngine_opc (inst : Inst) (s : State) : (startEngine inst s).opc = s.opc := rfl
@[simp] theorem startEngine_opd (inst : Inst) (s : State) : (startEngine inst s).opd = s.opd := rfl
@[simp] theorem startEngine_win (inst : Inst) (s : State) : (startEngine inst s).win = s.win := rfl
@[simp] theorem startEngine_p0 (inst : Inst) (s : State) : (startEngine inst s).p0 = s.p0 := rfl
@[simp] theorem startEngine_p1 (inst : Inst) (s : State) : (startEngine inst s).p1 = s.p1 := rfl
@[simp] theorem startEngine_p2 (inst : Inst) (s : State) : (startEngine inst s).p2 = s.p2 := rfl
@[simp] theorem startEngine_p3 (inst : Inst) (s : State) : (startEngine inst s).p3 = s.p3 := rfl
@[simp] theorem startEngine_engine (inst : Inst) (s : State) : (startEngine inst s).engine = some (latch inst s) := rfl
@[simp] theorem startEngine_mem (inst : Inst) (s : State) : (startEngine inst s).mem = s.mem := rfl
@[simp] theorem startEngine_platform (inst : Inst) (s : State) : (startEngine inst s).platform = s.platform := rfl
@[simp] theorem startEngine_script (inst : Inst) (s : State) : (startEngine inst s).script = s.script := rfl
@[simp] theorem startEngine_hostData (inst : Inst) (s : State) : (startEngine inst s).hostData = s.hostData := rfl
@[simp] theorem startEngine_draws (inst : Inst) (s : State) : (startEngine inst s).draws = s.draws := rfl

/-! ### writeStatus -/

@[simp] theorem writeStatus_ctrlClamp (v : Word) (s : State) : (writeStatus v s).ctrlClamp = s.ctrlClamp := rfl
@[simp] theorem writeStatus_ctrlIe (v : Word) (s : State) : (writeStatus v s).ctrlIe = s.ctrlIe := rfl
@[simp] theorem writeStatus_statusDone (v : Word) (s : State) : (writeStatus v s).statusDone = (s.statusDone && !v.getLsbD 1) := rfl
@[simp] theorem writeStatus_statusOvr (v : Word) (s : State) : (writeStatus v s).statusOvr = (s.statusOvr && !v.getLsbD 2) := rfl
@[simp] theorem writeStatus_statusErr (v : Word) (s : State) : (writeStatus v s).statusErr = s.statusErr := rfl
@[simp] theorem writeStatus_cmd (v : Word) (s : State) : (writeStatus v s).cmd = s.cmd := rfl
@[simp] theorem writeStatus_result (v : Word) (s : State) : (writeStatus v s).result = s.result := rfl
@[simp] theorem writeStatus_slots (v : Word) (s : State) : (writeStatus v s).slots = s.slots := rfl
@[simp] theorem writeStatus_srcAddr (v : Word) (s : State) : (writeStatus v s).srcAddr = s.srcAddr := rfl
@[simp] theorem writeStatus_srcStride (v : Word) (s : State) : (writeStatus v s).srcStride = s.srcStride := rfl
@[simp] theorem writeStatus_dstAddr (v : Word) (s : State) : (writeStatus v s).dstAddr = s.dstAddr := rfl
@[simp] theorem writeStatus_dstStride (v : Word) (s : State) : (writeStatus v s).dstStride = s.dstStride := rfl
@[simp] theorem writeStatus_width (v : Word) (s : State) : (writeStatus v s).width = s.width := rfl
@[simp] theorem writeStatus_height (v : Word) (s : State) : (writeStatus v s).height = s.height := rfl
@[simp] theorem writeStatus_outw (v : Word) (s : State) : (writeStatus v s).outw = s.outw := rfl
@[simp] theorem writeStatus_outh (v : Word) (s : State) : (writeStatus v s).outh = s.outh := rfl
@[simp] theorem writeStatus_opa (v : Word) (s : State) : (writeStatus v s).opa = s.opa := rfl
@[simp] theorem writeStatus_opb (v : Word) (s : State) : (writeStatus v s).opb = s.opb := rfl
@[simp] theorem writeStatus_opc (v : Word) (s : State) : (writeStatus v s).opc = s.opc := rfl
@[simp] theorem writeStatus_opd (v : Word) (s : State) : (writeStatus v s).opd = s.opd := rfl
@[simp] theorem writeStatus_win (v : Word) (s : State) : (writeStatus v s).win = s.win := rfl
@[simp] theorem writeStatus_p0 (v : Word) (s : State) : (writeStatus v s).p0 = s.p0 := rfl
@[simp] theorem writeStatus_p1 (v : Word) (s : State) : (writeStatus v s).p1 = s.p1 := rfl
@[simp] theorem writeStatus_p2 (v : Word) (s : State) : (writeStatus v s).p2 = s.p2 := rfl
@[simp] theorem writeStatus_p3 (v : Word) (s : State) : (writeStatus v s).p3 = s.p3 := rfl
@[simp] theorem writeStatus_engine (v : Word) (s : State) : (writeStatus v s).engine = s.engine := rfl
@[simp] theorem writeStatus_mem (v : Word) (s : State) : (writeStatus v s).mem = s.mem := rfl
@[simp] theorem writeStatus_platform (v : Word) (s : State) : (writeStatus v s).platform = s.platform := rfl
@[simp] theorem writeStatus_script (v : Word) (s : State) : (writeStatus v s).script = s.script := rfl
@[simp] theorem writeStatus_hostData (v : Word) (s : State) : (writeStatus v s).hostData = s.hostData := rfl
@[simp] theorem writeStatus_draws (v : Word) (s : State) : (writeStatus v s).draws = s.draws := rfl

/-! ### writeCtrl -/

@[simp] theorem writeCtrl_ctrlClamp (v : Word) (s : State) : (writeCtrl v s).ctrlClamp = v.getLsbD 0 := rfl
@[simp] theorem writeCtrl_ctrlIe (v : Word) (s : State) : (writeCtrl v s).ctrlIe = v.getLsbD 1 := rfl
@[simp] theorem writeCtrl_statusDone (v : Word) (s : State) : (writeCtrl v s).statusDone = s.statusDone := rfl
@[simp] theorem writeCtrl_statusOvr (v : Word) (s : State) : (writeCtrl v s).statusOvr = s.statusOvr := rfl
@[simp] theorem writeCtrl_statusErr (v : Word) (s : State) : (writeCtrl v s).statusErr = s.statusErr := rfl
@[simp] theorem writeCtrl_cmd (v : Word) (s : State) : (writeCtrl v s).cmd = s.cmd := rfl
@[simp] theorem writeCtrl_result (v : Word) (s : State) : (writeCtrl v s).result = s.result := rfl
@[simp] theorem writeCtrl_slots (v : Word) (s : State) : (writeCtrl v s).slots = s.slots := rfl
@[simp] theorem writeCtrl_srcAddr (v : Word) (s : State) : (writeCtrl v s).srcAddr = s.srcAddr := rfl
@[simp] theorem writeCtrl_srcStride (v : Word) (s : State) : (writeCtrl v s).srcStride = s.srcStride := rfl
@[simp] theorem writeCtrl_dstAddr (v : Word) (s : State) : (writeCtrl v s).dstAddr = s.dstAddr := rfl
@[simp] theorem writeCtrl_dstStride (v : Word) (s : State) : (writeCtrl v s).dstStride = s.dstStride := rfl
@[simp] theorem writeCtrl_width (v : Word) (s : State) : (writeCtrl v s).width = s.width := rfl
@[simp] theorem writeCtrl_height (v : Word) (s : State) : (writeCtrl v s).height = s.height := rfl
@[simp] theorem writeCtrl_outw (v : Word) (s : State) : (writeCtrl v s).outw = s.outw := rfl
@[simp] theorem writeCtrl_outh (v : Word) (s : State) : (writeCtrl v s).outh = s.outh := rfl
@[simp] theorem writeCtrl_opa (v : Word) (s : State) : (writeCtrl v s).opa = s.opa := rfl
@[simp] theorem writeCtrl_opb (v : Word) (s : State) : (writeCtrl v s).opb = s.opb := rfl
@[simp] theorem writeCtrl_opc (v : Word) (s : State) : (writeCtrl v s).opc = s.opc := rfl
@[simp] theorem writeCtrl_opd (v : Word) (s : State) : (writeCtrl v s).opd = s.opd := rfl
@[simp] theorem writeCtrl_win (v : Word) (s : State) : (writeCtrl v s).win = s.win := rfl
@[simp] theorem writeCtrl_p0 (v : Word) (s : State) : (writeCtrl v s).p0 = s.p0 := rfl
@[simp] theorem writeCtrl_p1 (v : Word) (s : State) : (writeCtrl v s).p1 = s.p1 := rfl
@[simp] theorem writeCtrl_p2 (v : Word) (s : State) : (writeCtrl v s).p2 = s.p2 := rfl
@[simp] theorem writeCtrl_p3 (v : Word) (s : State) : (writeCtrl v s).p3 = s.p3 := rfl
@[simp] theorem writeCtrl_engine (v : Word) (s : State) : (writeCtrl v s).engine = s.engine := rfl
@[simp] theorem writeCtrl_mem (v : Word) (s : State) : (writeCtrl v s).mem = s.mem := rfl
@[simp] theorem writeCtrl_platform (v : Word) (s : State) : (writeCtrl v s).platform = s.platform := rfl
@[simp] theorem writeCtrl_script (v : Word) (s : State) : (writeCtrl v s).script = s.script := rfl
@[simp] theorem writeCtrl_hostData (v : Word) (s : State) : (writeCtrl v s).hostData = s.hostData := rfl
@[simp] theorem writeCtrl_draws (v : Word) (s : State) : (writeCtrl v s).draws = s.draws := rfl

end Sys2Proof.Machine
end

