-- ==== Sys2Proof/Laws/Commands.lean ====
section
/-! SUPPORT. What a completed command leaves, the instance slots under a change of one slot, and the outcomes of `exec`. -/

namespace Sys2Proof.Machine

theorem SameSurroundings.refl (s : State) : SameSurroundings s s := ⟨rfl, rfl, rfl, rfl⟩

/-- `complete` on a state that differs from the accepted one in listed registers only. -/
theorem CommandEffect.of_complete {changed : List Reg} {err : Err} {s u : State}
    (hr : SameRegsExcept (.status :: changed) s u) (hs : .slots ∉ changed → u.slots = s.slots)
    (ho : u.statusOvr = s.statusOvr) (hm : u.mem = s.mem) (hp : SameSurroundings s u) :
    CommandEffect changed err s (complete err u) := by
  refine ⟨⟨rfl, rfl, rfl, ho⟩, fun r h => ?_, hs, fun a => congrArg (Memory.read · a) hm, hp⟩
  rw [← hr r h]
  cases r <;> first | rfl | simp at h

/-- `fail(err)` has no effect but the completion (60_exceptions R231). -/
theorem CommandEffect.complete_self (err : Err) (s : State) : CommandEffect [] err s (complete err s) :=
  .of_complete (fun _ _ => rfl) (fun _ => rfl) rfl rfl (.refl s)

/-- A command whose one result is RESULT. -/
theorem CommandEffect.complete_result (err : Err) (s : State) (v : Word) :
    CommandEffect [.result] err s (complete err { s with result := v }) :=
  .of_complete (fun r h => by cases r <;> first | (simp at h; done) | rfl) (fun _ => rfl) rfl rfl (.refl s)

/-! ### Formats -/

@[simp] theorem formatOf_one : formatOf 1 = some .xrgb8888 := rfl

@[simp] theorem formatOf_two : formatOf 2 = some .rgb565 := rfl

theorem formatOf_eq_some {n : Nat} {f : Format} : formatOf n = some f ↔ n = 1 ∧ f = .xrgb8888 ∨ n = 2 ∧ f = .rgb565 := by
  unfold formatOf
  split <;> cases f <;> simp_all

theorem formatOf_eq_none {n : Nat} : formatOf n = none ↔ n ≠ 1 ∧ n ≠ 2 := by
  unfold formatOf
  split <;> simp_all

theorem withFormat_some {n : Nat} {f : Format} (h : formatOf n = some f) (s : State) (effect : Format → State) :
    withFormat n s effect = .next (complete .eNone (effect f)) := by rw [withFormat, h]

theorem withFormat_none {n : Nat} (h : formatOf n = none) (s : State) (effect : Format → State) :
    withFormat n s effect = .next (complete .eConfig s) := by rw [withFormat, h]; rfl

/-! ### Instance slots -/

theorem instAt_eq_none_of_le (s : State) {i : Nat} (h : Config.nslot ≤ i) : instAt s i = none := by
  rw [instAt, Vector.getElem?_eq_none h]; rfl

theorem lt_nslot_of_instAt {s : State} {i : Nat} {inst : Inst} (h : instAt s i = some inst) : i < Config.nslot := by
  by_contra hi
  rw [instAt_eq_none_of_le s (by omega)] at h
  cases h

theorem instAt_setSlot_same (s : State) {i : Nat} (h : i < Config.nslot) (x : Option Inst) : instAt (setSlot i x s) i = x := by
  simp [instAt, setSlot, h]

theorem instAt_setSlot_ne (s : State) {i k : Nat} (h : k ≠ i) (x : Option Inst) :
    instAt (setSlot i x s) k = instAt s k := by
  simp only [instAt, setSlot, Vector.getElem?_setIfInBounds]
  rw [if_neg (Ne.symm h)]

theorem setSlot_comm (s : State) {i k : Nat} (h : i ≠ k) (x y : Option Inst) :
    setSlot i x (setSlot k y s) = setSlot k y (setSlot i x s) := by
  simp only [setSlot]
  congr 1
  ext m hm : 1
  simp only [Vector.getElem_setIfInBounds]
  split_ifs <;> first | rfl | omega

theorem withSlot_some {slot : Nat} {inst : Inst} {s : State} (h : instAt s slot = some inst) (k : Inst → State) :
    withSlot slot s k = .next (k inst) := by rw [withSlot, h]

theorem withSlot_none {slot : Nat} {s : State} (h : instAt s slot = none) (k : Inst → State) :
    withSlot slot s k = .next (complete .eNoslot s) := by rw [withSlot, h]; rfl

/-- The least free slot (43_registry R183). -/
theorem firstFree_eq_some {s : State} {i : Nat} (hi : i < Config.nslot) (h : instAt s i = none) (hb : ∀ k < i, instAt s k ≠ none) :
    firstFree s = some i := by
  rw [firstFree, List.find?_range_eq_some]
  refine ⟨by simp [h], by simpa using hi, fun k hk => ?_⟩
  have := hb k hk
  simp only [Bool.not_eq_true', Option.isNone_eq_false_iff]
  exact Option.isSome_iff_ne_none.2 this

theorem firstFree_eq_none {s : State} (h : ∀ i < Config.nslot, instAt s i ≠ none) : firstFree s = none := by
  rw [firstFree, List.find?_eq_none]
  intro i hi
  have := h i (by simpa using hi)
  simpa using this

/-! ### Outcomes -/

/-- What `exec` can answer: always a next state, in which either the command has completed or a RENDER has begun. -/
theorem exec_next (i : Instr) (s : State) : ∃ t, exec i s = .next t ∧
    ((∃ err u, t = complete err u ∧ u.mem = s.mem ∧ u.ctrlIe = s.ctrlIe) ∨
      (∃ slot inst, i = .render slot ∧ instAt s slot = some inst ∧ renderCheck inst.fmt s = none ∧ t = startEngine inst s)) := by
  cases i <;> simp only [exec]
  case nop => exact ⟨_, rfl, .inl ⟨_, _, rfl, rfl, rfl⟩⟩
  case qinfmt => exact ⟨_, rfl, .inl ⟨_, _, rfl, rfl, rfl⟩⟩
  case qoutfmt => exact ⟨_, rfl, .inl ⟨_, _, rfl, rfl, rfl⟩⟩
  case create => unfold execCreate; (repeat' split) <;> exact ⟨_, rfl, .inl ⟨_, _, rfl, rfl, rfl⟩⟩
  case destroy => unfold execDestroy withSlot; split <;> exact ⟨_, rfl, .inl ⟨_, _, rfl, rfl, rfl⟩⟩
  case outsize =>
    unfold execOutsize withSlot
    split
    · exact ⟨_, rfl, .inl ⟨_, _, rfl, rfl, rfl⟩⟩
    · refine ⟨_, rfl, .inl ?_⟩
      split <;> exact ⟨_, _, rfl, rfl, rfl⟩
  case firstpass => unfold execFirstpass withSlot; split <;> exact ⟨_, rfl, .inl ⟨_, _, rfl, rfl, rfl⟩⟩
  case render slot =>
    unfold execRender withSlot
    split
    · exact ⟨_, rfl, .inl ⟨_, _, rfl, rfl, rfl⟩⟩
    · rename_i inst h
      refine ⟨_, rfl, ?_⟩
      dsimp only
      split
      · exact .inl ⟨_, _, rfl, rfl, rfl⟩
      · exact .inr ⟨slot, inst, rfl, h, by assumption, rfl⟩
  case blend2 => unfold execBlend2 withFormat; split <;> exact ⟨_, rfl, .inl ⟨_, _, rfl, rfl, rfl⟩⟩
  case blend4 => unfold execBlend4 withFormat; split <;> exact ⟨_, rfl, .inl ⟨_, _, rfl, rfl, rfl⟩⟩
  case cmp => unfold execCmp withFormat; split <;> exact ⟨_, rfl, .inl ⟨_, _, rfl, rfl, rfl⟩⟩
  case classify => unfold execClassify withFormat; split <;> exact ⟨_, rfl, .inl ⟨_, _, rfl, rfl, rfl⟩⟩
  case block => unfold execBlock withFormat; split <;> exact ⟨_, rfl, .inl ⟨_, _, rfl, rfl, rfl⟩⟩

end Sys2Proof.Machine
end

