-- ==== Sys2Proof/Laws/Decode.lean ====
section
/-! SUPPORT. A command word is its fields put together, and the mask of the reserved bits. -/

namespace Sys2Proof

/-- The fields of 30_encoding R91, put together, are the word. -/
theorem word_eq_fields (c : Word) :
    c = rsv1Field c ++ fmtField c ++ rsv0Field c ++ descField c ++ slotField c ++ opField c := by
  apply BitVec.eq_of_toNat_eq
  have := c.isLt
  simp only [rsv1Field, fmtField, rsv0Field, descField, slotField, opField, BitVec.toNat_append, BitVec.extractLsb'_toNat,
    Nat.shiftRight_eq_div_pow, Nat.shiftLeft_eq]
  have k : ∀ a n b : Nat, b < 2 ^ n → a * 2 ^ n ||| b = a * 2 ^ n + b := fun a n b h => by
    rw [Nat.mul_comm]; exact (Nat.two_pow_add_eq_or_of_lt h a).symm
  rw [k _ 2 _ (by omega), k _ 3 _ (by omega), k _ 1 _ (by omega), k _ 4 _ (by omega), k _ 8 _ (by omega)]
  omega

/-- The reserved bits are those of the mask 0xFFFCE000. -/
theorem reserved_mask (c : Word) : c &&& 0xFFFCE000#32 = 0#32 ↔ (rsv1Field c = 0#14 ∧ rsv0Field c = 0#3) := by
  constructor
  · intro h
    have hb : ∀ i, (c &&& 0xFFFCE000#32).getLsbD i = false := fun i => by rw [h]; simp
    constructor <;> (apply BitVec.eq_of_getLsbD_eq; intro i hi)
    · have := hb (18 + i)
      simp only [rsv1Field, BitVec.getLsbD_and, BitVec.getLsbD_extractLsb'] at this ⊢
      interval_cases i <;> simpa using this
    · have := hb (13 + i)
      simp only [rsv0Field, BitVec.getLsbD_and, BitVec.getLsbD_extractLsb'] at this ⊢
      interval_cases i <;> simpa using this
  · rintro ⟨h1, h2⟩
    rw [word_eq_fields c, h1, h2]
    generalize fmtField c = F
    generalize descField c = D
    generalize slotField c = S
    generalize opField c = O
    apply BitVec.eq_of_getLsbD_eq
    intro i hi
    simp only [BitVec.getLsbD_and, BitVec.getLsbD_append]
    interval_cases i <;> simp

/-- The low byte is OP. -/
theorem op_mask (c : Word) : (c &&& 0xFF#32).toNat = (opField c).toNat := by
  simp [opField]
  exact Nat.and_two_pow_sub_one_eq_mod c.toNat 8

end Sys2Proof
end

