-- ==== Sys2Proof/Laws/Port.lean ====
section
/-! SUPPORT. The register port: each register at its offset, the words of CTRL, STATUS and the dimensions, and what a host write
does. -/

namespace Sys2Proof.Machine

@[simp] theorem regAt_offset (r : Reg) : regAt r.offset.toNat = some r := by
  cases r with
  | win k => revert k; decide
  | _ => rfl

@[simp] theorem definedAccess_offset (r : Reg) : definedAccess r.offset .word = true := by
  cases r with
  | win k => revert k; decide
  | _ => decide

/-- A host write of a register other than CMD is its store. -/
theorem hostWrite_reg {r : Reg} (v : Word) (s : State) (h : r ≠ .cmd) : hostWrite r.offset .word v s = .next (storeReg r v s) := by
  rw [hostWrite, if_pos (definedAccess_offset r), regAt_offset]
  cases r <;> first | rfl | exact absurd rfl h

/-- A host write to CMD is a request. -/
theorem hostWrite_cmd (c : Word) (s : State) : hostWrite 0x10#8 .word c s = request c s := by
  rw [hostWrite, if_pos (by decide)]
  rfl

theorem request_busy {s : State} (c : Word) (h : s.busy = true) : request c s = .next (dropRequest s) := by
  rw [request, if_pos h]

theorem request_ok {s : State} {c : Word} {i : Instr} (h : s.busy = false) (hd : decode c = .ok i) :
    request c s = exec i (accept c s) := by
  rw [request, h, hd]; rfl

theorem request_error {s : State} {c : Word} {e : Illegal} (h : s.busy = false) (hd : decode c = .error e) :
    request c s = .next (complete .eIllegal (accept c s)) := by
  rw [request, h, hd]; rfl

/-- The step of the script's next action. -/
theorem step_cons {s : State} {x : Action} {rest : List Action} (h : s.script = x :: rest) :
    step s = act x { s with script := rest } := by
  rw [step, moveNext, h]

theorem step_nil {s : State} (h : s.script = []) : step s = .next (engineStep none s) := by
  rw [step, moveNext, h]

/-- A written CTRL reads back in its bits 1:0. -/
theorem ctrlWord_writeCtrl (v : Word) (s : State) : ctrlWord (writeCtrl v s) = v &&& 0x3#32 := by
  simp only [ctrlWord, writeCtrl]
  apply BitVec.eq_of_getLsbD_eq
  intro i hi
  simp only [BitVec.getLsbD_and, BitVec.getLsbD_append]
  interval_cases i <;> simp

/-- WIDTH and HEIGHT keep the low 16 bits. -/
theorem setWidth_dim (v : Word) : ((v.setWidth 16).setWidth 32 : Word) = v &&& 0xFFFF#32 := by
  apply BitVec.eq_of_getLsbD_eq
  intro i hi
  simp only [BitVec.getLsbD_and, BitVec.getLsbD_setWidth]
  interval_cases i <;> simp

/-- The fields of STATUS (10_state R25). -/
theorem statusWord_fields (s : State) :
    (statusWord s).getLsbD 0 = s.busy ∧ (statusWord s).getLsbD 1 = s.statusDone ∧ (statusWord s).getLsbD 2 = s.statusOvr ∧
      (statusWord s).extractLsb' 8 4 = s.statusErr.code ∧ statusWord s &&& 0xFFFFF0F8#32 = 0#32 := by
  unfold statusWord
  cases s.busy <;> cases s.statusDone <;> cases s.statusOvr <;> cases s.statusErr <;> decide

/-- The bits of SLOTS (10_state R28), from its four terms. -/
theorem slotsWord_bits (s : State) :
    (∀ i < 4, (slotsWord s).getLsbD i = slotValid s i) ∧ (slotsWord s).toNat < 16 := by
  have key : ∀ (v0 v1 v2 v3 : Bool) (w : Word),
      w = ((((0#32 ||| (BitVec.ofBool v3).setWidth 32 <<< 3) ||| (BitVec.ofBool v2).setWidth 32 <<< 2) |||
        (BitVec.ofBool v1).setWidth 32 <<< 1) ||| (BitVec.ofBool v0).setWidth 32 <<< 0) →
      w.getLsbD 0 = v0 ∧ w.getLsbD 1 = v1 ∧ w.getLsbD 2 = v2 ∧ w.getLsbD 3 = v3 ∧ w.toNat < 16 := by
    rintro v0 v1 v2 v3 w rfl
    cases v0 <;> cases v1 <;> cases v2 <;> cases v3 <;> decide
  have h := key (slotValid s 0) (slotValid s 1) (slotValid s 2) (slotValid s 3) (slotsWord s) rfl
  refine ⟨fun i hi => ?_, h.2.2.2.2⟩
  interval_cases i
  exacts [h.1, h.2.1, h.2.2.1, h.2.2.2.1]

/-- The nibbles of SLOTCFG (10_state R29), from its four terms. -/
theorem slotcfgWord_nibbles (s : State) :
    (∀ i < 4, (slotcfgWord s).extractLsb' (4 * i) 4 = 0#1 ++ slotDesc s i ++ slotFmt s i) ∧ (slotcfgWord s).toNat < 2 ^ 16 := by
  have key : ∀ (d0 d1 d2 d3 : BitVec 1) (f0 f1 f2 f3 : BitVec 2) (w : Word),
      w = ((((0#32 ||| (0#1 ++ d3 ++ f3).setWidth 32 <<< (4 * 3)) ||| (0#1 ++ d2 ++ f2).setWidth 32 <<< (4 * 2)) |||
        (0#1 ++ d1 ++ f1).setWidth 32 <<< (4 * 1)) ||| (0#1 ++ d0 ++ f0).setWidth 32 <<< (4 * 0)) →
      (∀ k < 4, w.extractLsb' (4 * k) 4 =
        (if k = 0 then 0#1 ++ d0 ++ f0 else if k = 1 then 0#1 ++ d1 ++ f1 else if k = 2 then 0#1 ++ d2 ++ f2 else 0#1 ++ d3 ++ f3)) ∧
      w = (w.setWidth 16).setWidth 32 := by
    intro d0 d1 d2 d3 f0 f1 f2 f3 w h
    constructor
    · intro k hk
      rw [h]
      apply BitVec.eq_of_getLsbD_eq
      intro i hi
      simp only [BitVec.getLsbD_extractLsb', BitVec.getLsbD_or, BitVec.getLsbD_shiftLeft, BitVec.getLsbD_setWidth]
      interval_cases k <;> interval_cases i <;> simp
    · apply BitVec.eq_of_getLsbD_eq
      intro i hi
      rw [h]
      simp only [BitVec.getLsbD_or, BitVec.getLsbD_shiftLeft, BitVec.getLsbD_setWidth]
      interval_cases i <;> simp
  obtain ⟨h, h'⟩ := key (slotDesc s 0) (slotDesc s 1) (slotDesc s 2) (slotDesc s 3) (slotFmt s 0) (slotFmt s 1) (slotFmt s 2)
    (slotFmt s 3) (slotcfgWord s) rfl
  constructor
  · intro i hi
    rw [h i hi]
    interval_cases i <;> rfl
  · rw [h']
    simp
    omega

end Sys2Proof.Machine
end

