-- ==== Sys2Proof/Laws/Kernels.lean ====
section
/-! SUPPORT. The classifier and the kernels on elements: blends are idempotent, kernels give elements, and the equalities their
evidence counts. -/

namespace Sys2Proof.Machine

theorem blend2_self (f : Format) {c : Word} (h : IsElement f c) : blend2 f c c = c := by
  refine element_ext f (blend2_channel f c c).1 h fun ch hc => ?_
  rw [(blend2_channel f c c).2 ch hc]; omega

theorem indicator_add_eq_two (p q : Prop) [Decidable p] [Decidable q] : indicator p + indicator q = 2 ↔ p ∧ q := by
  by_cases hp : p <;> by_cases hq : q <;> simp [indicator, hp, hq]

theorem indicator_add (p q : Prop) [Decidable p] [Decidable q] :
    indicator p + indicator q = ((decide p).toNat + (decide q).toNat : Nat) := by
  by_cases hp : p <;> by_cases hq : q <;> simp [indicator, hp, hq]

/-- `compare` by its three values (41_classifier R132). -/
theorem comparePx_eq (w x y z : Word) : comparePx w x y z =
    if w ≠ x ∧ y = x ∧ z = x then 1 else if w ≠ x ∧ y = w ∧ z = w then -1 else 0 := by
  unfold comparePx indicator
  by_cases hwx : w = x
  · subst hwx; simp
  · by_cases hx : y = x ∧ z = x
    · obtain ⟨rfl, rfl⟩ := hx; simp [hwx]
    · by_cases hw : y = w ∧ z = w
      · obtain ⟨rfl, rfl⟩ := hw; simp [hwx, Ne.symm hwx]
      · rw [if_pos (by tauto), if_pos (by tauto), if_neg (by tauto), if_neg (by tauto)]; rfl

/-- compare answers -1, 0 or 1. -/
theorem comparePx_range (w x y z : Word) : -1 ≤ comparePx w x y z ∧ comparePx w x y z ≤ 1 := by
  unfold comparePx indicator
  split_ifs <;> decide

theorem vote_range (w : Window) : -4 ≤ vote w ∧ vote w ≤ 4 := by
  have h1 := comparePx_range w.a w.b w.g w.h
  have h2 := comparePx_range w.a w.b w.k w.l
  have h3 := comparePx_range w.a w.b w.e w.f
  have h4 := comparePx_range w.a w.b w.i w.j
  unfold vote
  omega

/-- The window of WIN0 to WIN15 by letters. -/
theorem regWindow_eq (f : Format) (s : State) : regWindow f s = winWindow f s := rfl

theorem kernel_edge {w : Window} (h : caseOf w = .edge) (d : Desc) (f : Format) : kernel d f w = kernelEdge w := by rw [kernel, h]

theorem kernel_diag {w : Window} (h : caseOf w = .diag) (d : Desc) (f : Format) : kernel d f w = kernelDiag d f w := by
  rw [kernel, h]

theorem kernel_generic {w : Window} (h : caseOf w = .generic) (d : Desc) (f : Format) :
    kernel d f w = kernelGeneric d f w := by rw [kernel, h]

theorem kernel_p00 (d : Desc) (f : Format) (w : Window) : (kernel d f w).p00 = w.a := by
  unfold kernel
  split <;> rfl

/-- What holds of A, B, C and of every blend holds of every element of a kernel. -/
theorem kernel_forall (d : Desc) (f : Format) {w : Window} {P : Word → Prop} (ha : P w.a) (hb : P w.b) (hc : P w.c)
    (h2 : ∀ x y, P (blend2 f x y)) (h4 : ∀ x y z t, P (blend4 f x y z t)) :
    P (kernel d f w).p00 ∧ P (kernel d f w).p01 ∧ P (kernel d f w).p10 ∧ P (kernel d f w).p11 := by
  cases h : caseOf w
  · rw [kernel_edge h]
    exact ⟨ha, ha, ha, ha⟩
  · rw [kernel_diag h]
    refine ⟨ha, h2 _ _, h2 _ _, ?_⟩
    simp only [kernelDiag, diagCorner]
    cases d <;> dsimp only <;> split_ifs <;> with_reducible first | exact ha | exact hb | exact h2 _ _ | exact h4 _ _ _ _
  · rw [kernel_generic h]
    refine ⟨ha, ?_, ?_, ?_⟩
    · simp only [kernelGeneric, genericP01]
      cases d <;> dsimp only <;> split_ifs <;> with_reducible first | exact ha | exact hb | exact h2 _ _
    · simp only [kernelGeneric, genericP10]
      cases d <;> dsimp only <;> split_ifs <;> with_reducible first | exact ha | exact hc | exact h2 _ _
    · simp only [kernelGeneric, genericP11]
      split_ifs <;> with_reducible first | exact ha | exact hb | exact h2 _ _

/-- A kernel on elements gives elements. -/
theorem isElement_kernel (d : Desc) (f : Format) {w : Window} (ha : IsElement f w.a) (hb : IsElement f w.b) (hc : IsElement f w.c) :
    IsElement f (kernel d f w).p00 ∧ IsElement f (kernel d f w).p01 ∧ IsElement f (kernel d f w).p10 ∧
      IsElement f (kernel d f w).p11 :=
  kernel_forall d f (P := IsElement f) ha hb hc (fun x y => (blend2_channel f x y).1) (fun x y z t => (blend4_channel f x y z t).1)

/-- The kernel reads no element of the last row but N, and N in kernel A only (41_classifier R139). -/
theorem kernel_congr (d : Desc) (f : Format) (w : Window) (m' n' o' p' : Word) (hn : d = .a → n' = w.n) :
    kernel d f { w with m := m', n := n', o := o', p := p' } = kernel d f w := by
  cases d
  · rw [hn rfl]; rfl
  · rfl

end Sys2Proof.Machine
end

