-- ==== Sys2Proof/Laws/Memory.lean ====
section
/-! SUPPORT. The laws of memory: what a read gives after a store, and that every store keeps the canonical form. -/

namespace Sys2Proof.Machine

theorem Memory.wfFrom_mono {m : Memory} {lo lo' : Nat} (h : Memory.wfFrom lo m = true) (hle : lo' ≤ lo) :
    Memory.wfFrom lo' m = true := by
  cases m with
  | nil => rfl
  | cons c rest =>
    obtain ⟨k, b⟩ := c
    simp only [Memory.wfFrom, Bool.and_eq_true, decide_eq_true_eq] at h ⊢
    exact ⟨⟨⟨by omega, h.1.1.2⟩, h.1.2⟩, h.2⟩

theorem Memory.lookup_below {m : Memory} {lo a : Nat} (h : Memory.wfFrom lo m = true) (ha : a < lo) :
    Memory.lookup m a = Memory.unlisted := by
  induction m generalizing lo with
  | nil => rfl
  | cons c rest ih =>
    obtain ⟨k, b⟩ := c
    simp only [Memory.wfFrom, Bool.and_eq_true, decide_eq_true_eq] at h
    have hk : ¬ k = a := by omega
    simp only [Memory.lookup, hk, if_false]
    exact ih h.2 (by omega)

theorem Memory.lookup_update_ne (m : Memory) {a x : Nat} (b : Byte) (hx : x ≠ a) :
    Memory.lookup (Memory.update m a b) x = Memory.lookup m x := by
  induction m with
  | nil =>
    by_cases hb : b = Memory.unlisted <;> simp [Memory.update, Memory.lookup, hb, hx.symm]
  | cons c rest ih =>
    obtain ⟨k, c⟩ := c
    by_cases h1 : a < k
    · by_cases hb : b = Memory.unlisted <;> simp [Memory.update, Memory.lookup, h1, hb, hx.symm]
    · by_cases h2 : a = k
      · subst h2
        by_cases hb : b = Memory.unlisted <;> simp [Memory.update, Memory.lookup, hb, hx.symm]
      · simp only [Memory.update, h1, h2, if_false, Memory.lookup, ih]

theorem Memory.lookup_update_same {m : Memory} {lo : Nat} (h : Memory.wfFrom lo m = true) (a : Nat) (b : Byte) :
    Memory.lookup (Memory.update m a b) a = b := by
  induction m generalizing lo with
  | nil =>
    by_cases hb : b = Memory.unlisted
    · rw [hb]; rfl
    · simp [Memory.update, Memory.lookup, hb]
  | cons c rest ih =>
    obtain ⟨k, c⟩ := c
    simp only [Memory.wfFrom, Bool.and_eq_true, decide_eq_true_eq] at h
    by_cases h1 : a < k
    · by_cases hb : b = Memory.unlisted
      · have hk : ¬ k = a := by omega
        simp only [Memory.update, h1, hb, if_true, Memory.lookup, hk, if_false]
        exact Memory.lookup_below h.2 (by omega)
      · simp [Memory.update, Memory.lookup, h1, hb]
    · by_cases h2 : a = k
      · subst h2
        by_cases hb : b = Memory.unlisted
        · simp only [Memory.update, h1, hb, if_true, if_false]
          exact Memory.lookup_below h.2 (by omega)
        · simp [Memory.update, Memory.lookup, hb]
      · have hk : ¬ k = a := fun e => h2 e.symm
        simp only [Memory.update, h1, h2, if_false, Memory.lookup, hk]
        exact ih h.2

theorem Memory.wfFrom_update {m : Memory} {lo a : Nat} (h : Memory.wfFrom lo m = true) (hlo : lo ≤ a) (ha : a < 2 ^ 32)
    (b : Byte) : Memory.wfFrom lo (Memory.update m a b) = true := by
  induction m generalizing lo with
  | nil =>
    by_cases hb : b = Memory.unlisted <;> simp_all [Memory.update, Memory.wfFrom]
  | cons c rest ih =>
    obtain ⟨k, c⟩ := c
    have h' := h
    simp only [Memory.wfFrom, Bool.and_eq_true, decide_eq_true_eq] at h
    by_cases h1 : a < k
    · by_cases hb : b = Memory.unlisted
      · simpa [Memory.update, h1, hb] using h'
      · simp only [Memory.update, h1, hb, if_true, if_false, Memory.wfFrom, Bool.and_eq_true, decide_eq_true_eq,
          Bool.not_eq_true', decide_eq_false_iff_not, not_false_eq_true, and_true]
        exact ⟨⟨hlo, ha⟩, ⟨⟨by omega, h.1.1.2⟩, by simpa using h.1.2⟩, h.2⟩
    · by_cases h2 : a = k
      · subst h2
        by_cases hb : b = Memory.unlisted
        · simp only [Memory.update, h1, hb, if_true, if_false]
          exact Memory.wfFrom_mono h.2 (by omega)
        · simp only [Memory.update, h1, hb, if_true, if_false, Memory.wfFrom, Bool.and_eq_true, decide_eq_true_eq,
            Bool.not_eq_true', decide_eq_false_iff_not, not_false_eq_true, and_true]
          exact ⟨⟨hlo, ha⟩, h.2⟩
      · simp only [Memory.update, h1, h2, if_false, Memory.wfFrom, Bool.and_eq_true, decide_eq_true_eq]
        exact ⟨h.1, ih h.2 (by omega)⟩

/-- Storing a byte keeps the canonical form. -/
theorem Memory.wf_write {m : Memory} (h : m.wf = true) (a : Addr) (b : Byte) : (m.write a b).wf = true :=
  Memory.wfFrom_update h (Nat.zero_le _) a.isLt b

/-- A read after a store to the same address gives the byte stored. -/
theorem Memory.read_write_same {m : Memory} (h : m.wf = true) (a : Addr) (b : Byte) : (m.write a b).read a = b :=
  Memory.lookup_update_same h _ _

/-- A store leaves every other address alone. -/
theorem Memory.read_write_ne (m : Memory) {a x : Addr} (b : Byte) (hx : x ≠ a) : (m.write a b).read x = m.read x :=
  Memory.lookup_update_ne m b fun e => hx (BitVec.eq_of_toNat_eq e)

theorem Memory.lookup_ge {m : Memory} {lo a : Nat} (h : Memory.wfFrom lo m = true) (ha : 2 ^ 32 ≤ a) :
    Memory.lookup m a = Memory.unlisted := by
  induction m generalizing lo with
  | nil => rfl
  | cons c rest ih =>
    obtain ⟨k, b⟩ := c
    simp only [Memory.wfFrom, Bool.and_eq_true, decide_eq_true_eq] at h
    have hk : ¬ k = a := by omega
    simp only [Memory.lookup, hk, if_false]
    exact ih h.2

theorem Memory.eq_of_lookup_eq {m m' : Memory} {lo : Nat} (h : Memory.wfFrom lo m = true) (h' : Memory.wfFrom lo m' = true)
    (heq : ∀ a, Memory.lookup m a = Memory.lookup m' a) : m = m' := by
  induction m generalizing lo m' with
  | nil =>
    cases m' with
    | nil => rfl
    | cons c rest =>
      obtain ⟨k, b⟩ := c
      have hk := heq k
      simp only [Memory.wfFrom, Bool.and_eq_true, Bool.not_eq_true', decide_eq_false_iff_not] at h'
      simp only [Memory.lookup, if_true] at hk
      exact absurd hk.symm h'.1.2
  | cons c rest ih =>
    obtain ⟨k, b⟩ := c
    cases m' with
    | nil =>
      have hk := heq k
      simp only [Memory.wfFrom, Bool.and_eq_true, Bool.not_eq_true', decide_eq_false_iff_not] at h
      simp only [Memory.lookup, if_true] at hk
      exact absurd hk h.1.2
    | cons c' rest' =>
      obtain ⟨k', b'⟩ := c'
      simp only [Memory.wfFrom, Bool.and_eq_true, Bool.not_eq_true', decide_eq_false_iff_not, decide_eq_true_eq] at h h'
      have e1 := heq k
      have e2 := heq k'
      simp only [Memory.lookup, if_true] at e1 e2
      have hkk : k = k' := by
        rcases Nat.lt_trichotomy k k' with hlt | he | hgt
        · have hn : ¬ k' = k := by omega
          rw [if_neg hn, Memory.lookup_below h'.2 (by omega)] at e1
          exact absurd e1 h.1.2
        · exact he
        · have hn : ¬ k = k' := by omega
          rw [if_neg hn, Memory.lookup_below h.2 (by omega)] at e2
          exact absurd e2.symm h'.1.2
      subst hkk
      simp only [if_true] at e1
      subst e1
      congr 1
      refine ih h.2 h'.2 fun a => ?_
      rcases Nat.lt_or_ge a (k + 1) with ha | ha
      · rw [Memory.lookup_below h.2 ha, Memory.lookup_below h'.2 ha]
      · have hn : ¬ k = a := by omega
        simpa [Memory.lookup, hn] using heq a

/-- Memories in canonical form that read alike at every address are equal. -/
theorem Memory.eq_of_read_eq {m m' : Memory} (h : m.wf = true) (h' : m'.wf = true)
    (heq : ∀ a : Addr, m.read a = m'.read a) : m = m' := by
  refine Memory.eq_of_lookup_eq h h' fun a => ?_
  rcases Nat.lt_or_ge a (2 ^ 32) with ha | ha
  · have h := heq (BitVec.ofNat 32 a)
    rwa [Memory.read, Memory.read, BitVec.toNat_ofNat, Nat.mod_eq_of_lt ha] at h
  · rw [Memory.lookup_ge h ha, Memory.lookup_ge h' ha]

/-! ### Lists of bytes -/

@[simp] theorem Memory.writeBytes_nil (m : Memory) : m.writeBytes [] = m := rfl

@[simp] theorem Memory.writeBytes_cons (m : Memory) (c : Addr × Byte) (cs : List (Addr × Byte)) :
    m.writeBytes (c :: cs) = (m.write c.1 c.2).writeBytes cs := rfl

theorem Memory.writeBytes_append (m : Memory) (cs ds : List (Addr × Byte)) :
    m.writeBytes (cs ++ ds) = (m.writeBytes cs).writeBytes ds := List.foldl_append ..

theorem Memory.wf_writeBytes {m : Memory} (h : m.wf = true) (cs : List (Addr × Byte)) : (m.writeBytes cs).wf = true := by
  induction cs generalizing m with
  | nil => exact h
  | cons c cs ih => exact ih (Memory.wf_write h c.1 c.2)

/-- An address outside the list reads as before. -/
theorem Memory.read_writeBytes_of_notMem (m : Memory) {cs : List (Addr × Byte)} {x : Addr} (hx : x ∉ cs.map Prod.fst) :
    (m.writeBytes cs).read x = m.read x := by
  induction cs generalizing m with
  | nil => rfl
  | cons c cs ih =>
    simp only [List.map_cons, List.mem_cons, not_or] at hx
    rw [Memory.writeBytes_cons, ih _ hx.2, Memory.read_write_ne m c.2 hx.1]

/-- Where no address stands twice, each address of the list reads its byte. -/
theorem Memory.read_writeBytes_of_mem {m : Memory} (h : m.wf = true) {cs : List (Addr × Byte)} (hn : (cs.map Prod.fst).Nodup)
    {c : Addr × Byte} (hc : c ∈ cs) : (m.writeBytes cs).read c.1 = c.2 := by
  induction cs generalizing m with
  | nil => simp at hc
  | cons d cs ih =>
    simp only [List.map_cons, List.nodup_cons] at hn
    rw [Memory.writeBytes_cons]
    rcases List.mem_cons.1 hc with e | hc'
    · subst e
      rw [Memory.read_writeBytes_of_notMem _ hn.1, Memory.read_write_same h]
    · exact ih (Memory.wf_write h _ _) hn.2 hc'

theorem Memory.wf_anyValue {m : Memory} (h : m.wf = true) (d : Nat) (addrs : List Addr) : (m.anyValue d addrs).wf = true :=
  Memory.wf_writeBytes h _

/-- Memory outside the addresses that take any value reads as before. -/
theorem Memory.read_anyValue_of_notMem (m : Memory) (d : Nat) {addrs : List Addr} {x : Addr} (hx : x ∉ addrs) :
    (m.anyValue d addrs).read x = m.read x := by
  refine Memory.read_writeBytes_of_notMem m ?_
  simpa [List.map_map, Function.comp_def] using hx

/-! ### Elements -/

theorem mem_elemBytes {n : Nat} {a x : Addr} : x ∈ elemBytes n a ↔ ∃ k < n, a + BitVec.ofNat 32 k = x := by
  simp [elemBytes]

@[simp] theorem length_elemBytes (n : Nat) (a : Addr) : (elemBytes n a).length = n := by simp [elemBytes]

@[simp] theorem length_disassemble (e : Config.Endian) (n : Nat) (v : Word) : (disassemble e n v).length = n := by
  cases e <;> simp [disassemble]

/-- The bytes of one element have different addresses. -/
theorem nodup_elemBytes {n : Nat} (hn : n ≤ 2 ^ 32) (a : Addr) : (elemBytes n a).Nodup := by
  refine List.Nodup.map_on ?_ List.nodup_range
  intro x hx y hy hxy
  rw [List.mem_range] at hx hy
  have h := congrArg BitVec.toNat ((BitVec.add_right_inj a).1 hxy)
  rw [BitVec.toNat_ofNat, BitVec.toNat_ofNat, Nat.mod_eq_of_lt (by omega), Nat.mod_eq_of_lt (by omega)] at h
  exact h

/-- The bytes an element store writes. -/
def elemCells (n : Nat) (a : Addr) (v : Word) : List (Addr × Byte) := (elemBytes n a).zip (disassemble Config.endian n v)

theorem map_fst_elemCells (n : Nat) (a : Addr) (v : Word) : (elemCells n a v).map Prod.fst = elemBytes n a := by
  rw [elemCells, List.map_fst_zip]
  simp

theorem Memory.writeElem_eq (m : Memory) (n : Nat) (a : Addr) (v : Word) :
    m.writeElem n a v = m.writeBytes (elemCells n a v) := rfl

theorem Memory.wf_writeElem {m : Memory} (h : m.wf = true) (n : Nat) (a : Addr) (v : Word) : (m.writeElem n a v).wf = true :=
  Memory.wf_writeBytes h _

/-- An element store leaves every byte outside the element alone. -/
theorem Memory.read_writeElem_of_notMem (m : Memory) {n : Nat} {a x : Addr} (v : Word) (hx : x ∉ elemBytes n a) :
    (m.writeElem n a v).read x = m.read x := by
  rw [Memory.writeElem_eq]
  exact Memory.read_writeBytes_of_notMem m (by rwa [map_fst_elemCells])

theorem mem_elemCells {n k : Nat} (hk : k < n) (a : Addr) (v : Word) :
    (a + BitVec.ofNat 32 k, v.extractLsb' (8 * k) 8) ∈ elemCells n a v := by
  have h1 : (elemCells n a v).length = n := by simp [elemCells]
  have h2 : (elemCells n a v)[k]'(by omega) = (a + BitVec.ofNat 32 k, v.extractLsb' (8 * k) 8) := by
    simp [elemCells, elemBytes, disassemble, Config.endian]
  rw [← h2]
  exact List.getElem_mem _

/-- Byte k of an element at `a` after the store is byte k of the value, the lowest first (20_memory R62, ENDIAN = LE). -/
theorem Memory.read_writeElem_byte {m : Memory} (h : m.wf = true) {n k : Nat} (hn : n ≤ 2 ^ 32) (hk : k < n) (a : Addr) (v : Word) :
    (m.writeElem n a v).read (a + BitVec.ofNat 32 k) = v.extractLsb' (8 * k) 8 := by
  rw [Memory.writeElem_eq]
  exact Memory.read_writeBytes_of_mem h (by rw [map_fst_elemCells]; exact nodup_elemBytes hn a) (mem_elemCells hk a v)

/-- An element read depends on the element's bytes only. -/
theorem Memory.readElem_congr {m m' : Memory} {n : Nat} {a : Addr} (h : ∀ x ∈ elemBytes n a, m.read x = m'.read x) :
    m.readElem n a = m'.readElem n a := by
  rw [Memory.readElem, Memory.readElem, List.map_congr_left h]

end Sys2Proof.Machine
end

