-- ==== Sys2Proof/Laws/Render.lean ====
section
/-! SUPPORT. The raster of a RENDER: its coordinates, the bytes of each destination block and what writing a block leaves, the
alignment of every address, and the elements a fetch gives. -/

namespace Sys2Proof.Machine

/-! ### Coordinates -/

theorem Job.mem_coords {j : Job} {c : Nat × Nat} : c ∈ j.coords ↔ c.1 < j.w.toNat ∧ c.2 < j.h.toNat := by
  obtain ⟨x, y⟩ := c
  simp [Job.coords, and_comm]

theorem Job.length_coords (j : Job) : j.coords.length = j.w.toNat * j.h.toNat := by
  simp [Job.coords, List.length_flatMap, Nat.mul_comm]

theorem Job.nodup_coords (j : Job) : j.coords.Nodup := by
  rw [Job.coords, List.nodup_flatMap]
  refine ⟨fun y _ => List.nodup_range.map fun a b h => (Prod.mk.inj h).1, ?_⟩
  refine List.nodup_range.imp fun {a b} hab => ?_
  intro c h1 h2
  simp only [List.mem_map] at h1 h2
  obtain ⟨_, _, rfl⟩ := h1
  obtain ⟨_, _, h⟩ := h2
  exact hab (Prod.mk.inj h).2.symm

/-! ### done_blocks -/

theorem mem_insertBlock {c d : Nat × Nat} {l : List (Nat × Nat)} : d ∈ insertBlock c l ↔ d = c ∨ d ∈ l := by
  induction l with
  | nil => simp [insertBlock]
  | cons q qs ih =>
    unfold insertBlock
    split
    · simp
    · simp [ih, or_left_comm]

theorem length_insertBlock (c : Nat × Nat) (l : List (Nat × Nat)) : (insertBlock c l).length = l.length + 1 := by
  induction l with
  | nil => rfl
  | cons q qs ih =>
    unfold insertBlock
    split
    · simp
    · simp [ih]

theorem blockBefore_iff {p q : Nat × Nat} : blockBefore p q = true ↔ p.2 < q.2 ∨ p.2 = q.2 ∧ p.1 < q.1 := by
  simp [blockBefore]

theorem blockBefore_trans {p q r : Nat × Nat} (h : blockBefore p q = true) (h' : blockBefore q r = true) :
    blockBefore p r = true := by
  rw [blockBefore_iff] at *
  omega

theorem blockBefore_of_not {p q : Nat × Nat} (h : ¬ blockBefore p q = true) (hne : p ≠ q) : blockBefore q p = true := by
  rw [blockBefore_iff] at *
  have : ¬ (p.1 = q.1 ∧ p.2 = q.2) := fun e => hne (Prod.ext e.1 e.2)
  omega

/-- A new coordinate keeps done_blocks in row-major order. -/
theorem pairwise_insertBlock {c : Nat × Nat} {l : List (Nat × Nat)} (hl : l.Pairwise fun p q => blockBefore p q = true)
    (hc : c ∉ l) : (insertBlock c l).Pairwise fun p q => blockBefore p q = true := by
  induction l with
  | nil => simp [insertBlock]
  | cons q qs ih =>
    rw [List.pairwise_cons] at hl
    simp only [List.mem_cons, not_or] at hc
    unfold insertBlock
    split
    · rename_i h
      rw [List.pairwise_cons]
      refine ⟨fun d hd => ?_, List.pairwise_cons.2 hl⟩
      rcases List.mem_cons.1 hd with rfl | hd
      · exact h
      · exact blockBefore_trans h (hl.1 d hd)
    · rename_i h
      rw [List.pairwise_cons]
      refine ⟨fun d hd => ?_, ih hl.2 hc.2⟩
      rcases mem_insertBlock.1 hd with rfl | hd
      · exact blockBefore_of_not h hc.1
      · exact hl.1 d hd

theorem Job.mem_remaining {j : Job} {c : Nat × Nat} : c ∈ j.remaining ↔ c ∈ j.coords ∧ c ∉ j.done := by
  simp [Job.remaining]

theorem pickBlock_mem (k : Nat) (c : Nat × Nat) (cs : List (Nat × Nat)) : pickBlock k c cs ∈ c :: cs := by
  have h : k % (cs.length + 1) < (c :: cs).length := Nat.mod_lt _ (Nat.succ_pos _)
  rw [pickBlock, List.getD_eq_getElem _ _ h]
  exact List.getElem_mem h

/-- Finishing a block that remains leaves one less. -/
theorem Job.length_remaining_insert {j : Job} {c : Nat × Nat} (hc : c ∈ j.remaining) :
    ({ j with done := insertBlock c j.done } : Job).remaining.length + 1 = j.remaining.length := by
  have hn : j.remaining.Nodup := j.nodup_coords.filter _
  have e : ({ j with done := insertBlock c j.done } : Job).remaining = j.remaining.erase c := by
    rw [hn.erase_eq_filter, Job.remaining, Job.remaining, List.filter_filter]
    refine List.filter_congr fun d _ => ?_
    simp [mem_insertBlock]
    by_cases hd : d = c <;> simp [hd]
  rw [e, List.length_erase_of_mem hc]
  have := List.length_pos_of_mem hc
  omega

/-! ### The bytes of a destination block -/

/-- The bytes of the destination block of a coordinate. -/
def Job.blockBytes (j : Job) (c : Nat × Nat) : List Addr := (j.writesOf c).flatMap (elemBytes (esz j.fmt))

/-- The bytes a block's four element stores write, with their values. -/
def Job.blockCells (j : Job) (c : Nat × Nat) : List (Addr × Byte) :=
  (j.blockElems c).flatMap fun e => elemCells (esz j.fmt) e.1 e.2

theorem Job.dsetBytes_eq (j : Job) : j.dsetBytes = j.coords.flatMap j.blockBytes := by
  rw [Job.dsetBytes, List.flatMap_assoc]
  rfl

theorem Job.rsetBytes_eq (j : Job) :
    j.rsetBytes = j.coords.flatMap fun c => (j.readsOf c).flatMap (elemBytes (esz j.fmt)) := by
  rw [Job.rsetBytes, List.flatMap_assoc]

theorem Job.doneBytes_eq (j : Job) : j.doneBytes = j.done.flatMap j.blockBytes := by
  rw [Job.doneBytes, List.flatMap_assoc]
  rfl

theorem Job.writeBlock_eq (j : Job) (m : Memory) (c : Nat × Nat) : j.writeBlock m c = m.writeBytes (j.blockCells c) := by
  simp only [Job.writeBlock, Job.blockCells, Memory.writeElem_eq]
  generalize j.blockElems c = l
  induction l generalizing m with
  | nil => rfl
  | cons e l ih => simp [ih, Memory.writeBytes_append]

theorem Job.map_fst_blockCells (j : Job) (c : Nat × Nat) : (j.blockCells c).map Prod.fst = j.blockBytes c := by
  simp [Job.blockCells, Job.blockBytes, Job.blockElems, Job.writesOf, map_fst_elemCells]

theorem Job.wf_writeBlock {m : Memory} (h : m.wf = true) (j : Job) (c : Nat × Nat) : (j.writeBlock m c).wf = true := by
  rw [Job.writeBlock_eq]
  exact Memory.wf_writeBytes h _

/-- Writing a block leaves every byte outside it alone. -/
theorem Job.read_writeBlock_of_notMem (j : Job) (m : Memory) {c : Nat × Nat} {a : Addr} (h : a ∉ j.blockBytes c) :
    (j.writeBlock m c).read a = m.read a := by
  rw [Job.writeBlock_eq]
  exact Memory.read_writeBytes_of_notMem m (by rwa [Job.map_fst_blockCells])

/-- The block whose bytes are all different: each byte reads as written, whatever memory held. -/
theorem Job.read_writeBlock_of_mem (j : Job) {m : Memory} (hm : m.wf = true) {c : Nat × Nat} (hn : (j.blockBytes c).Nodup)
    {e : Addr × Byte} (he : e ∈ j.blockCells c) : (j.writeBlock m c).read e.1 = e.2 := by
  rw [Job.writeBlock_eq]
  exact Memory.read_writeBytes_of_mem hm (by rwa [Job.map_fst_blockCells]) he

theorem Job.read_writeBlock_congr (j : Job) {m m' : Memory} (hm : m.wf = true) (hm' : m'.wf = true) {c : Nat × Nat}
    (hn : (j.blockBytes c).Nodup) {a : Addr} (ha : a ∈ j.blockBytes c) :
    (j.writeBlock m c).read a = (j.writeBlock m' c).read a := by
  rw [← Job.map_fst_blockCells] at ha
  obtain ⟨e, he, rfl⟩ := List.mem_map.1 ha
  rw [j.read_writeBlock_of_mem hm hn he, j.read_writeBlock_of_mem hm' hn he]

/-- Where the destination has no byte twice, neither has a block, and two blocks share none (44_render R212 condition 2). -/
theorem Job.nodup_blockBytes {j : Job} (h : j.dsetBytes.Nodup) {c : Nat × Nat} (hc : c ∈ j.coords) : (j.blockBytes c).Nodup := by
  rw [Job.dsetBytes_eq, List.nodup_flatMap] at h
  exact h.1 c hc

theorem Job.eq_of_mem_blockBytes {j : Job} (h : j.dsetBytes.Nodup) {c d : Nat × Nat} (hc : c ∈ j.coords) (hd : d ∈ j.coords)
    {a : Addr} (ha : a ∈ j.blockBytes c) (ha' : a ∈ j.blockBytes d) : c = d := by
  rw [Job.dsetBytes_eq, List.nodup_flatMap] at h
  by_contra hne
  have hs : Std.Symm (Function.onFun List.Disjoint j.blockBytes) := ⟨fun _ _ h => List.Disjoint.symm h⟩
  exact (h.2.forall hc hd hne) ha ha'

theorem Job.mem_dsetBytes {j : Job} {a : Addr} : a ∈ j.dsetBytes ↔ ∃ c ∈ j.coords, a ∈ j.blockBytes c := by
  rw [Job.dsetBytes_eq, List.mem_flatMap]

theorem Job.mem_doneBytes {j : Job} {a : Addr} : a ∈ j.doneBytes ↔ ∃ c ∈ j.done, a ∈ j.blockBytes c := by
  rw [Job.doneBytes_eq, List.mem_flatMap]

theorem Job.wf_foldl_writeBlock (j : Job) (l : List (Nat × Nat)) {m : Memory} (h : m.wf = true) :
    (l.foldl j.writeBlock m).wf = true := by
  induction l generalizing m with
  | nil => exact h
  | cons c l ih => exact ih (Job.wf_writeBlock h j c)

theorem Job.read_foldl_of_notMem (j : Job) (l : List (Nat × Nat)) (m : Memory) {a : Addr} (h : ∀ c ∈ l, a ∉ j.blockBytes c) :
    (l.foldl j.writeBlock m).read a = m.read a := by
  induction l generalizing m with
  | nil => rfl
  | cons c l ih =>
    rw [List.foldl_cons, ih _ fun d hd => h d (List.mem_cons_of_mem c hd)]
    exact j.read_writeBlock_of_notMem m (h c List.mem_cons_self)

theorem Job.read_foldl_of_mem (j : Job) {l : List (Nat × Nat)} {m : Memory} (hm : m.wf = true) (hl : l.Nodup)
    {c : Nat × Nat} (hc : c ∈ l) (hn : (j.blockBytes c).Nodup) {a : Addr} (ha : a ∈ j.blockBytes c)
    (hd : ∀ d ∈ l, a ∈ j.blockBytes d → d = c) :
    (l.foldl j.writeBlock m).read a = (j.writeBlock m c).read a := by
  induction l generalizing m with
  | nil => simp at hc
  | cons d l ih =>
    rw [List.nodup_cons] at hl
    rw [List.foldl_cons]
    rcases List.mem_cons.1 hc with rfl | hc'
    · refine j.read_foldl_of_notMem l _ fun d hdl had => ?_
      exact hl.1 (hd d (List.mem_cons_of_mem _ hdl) had ▸ hdl)
    · rw [ih (Job.wf_writeBlock hm j d) hl.2 hc' fun x hx => hd x (List.mem_cons_of_mem _ hx)]
      exact j.read_writeBlock_congr (Job.wf_writeBlock hm j d) hm hn ha

/-- The final value of a destination byte is what its block writes there, over whatever memory (44_render R204). -/
theorem Job.read_finalMem_of_mem {j : Job} (hj : j.s0.wf = true) (h : j.dsetBytes.Nodup) {c : Nat × Nat} (hc : c ∈ j.coords)
    {a : Addr} (ha : a ∈ j.blockBytes c) {m : Memory} (hm : m.wf = true) :
    j.finalMem.read a = (j.writeBlock m c).read a := by
  have hn := Job.nodup_blockBytes h hc
  rw [Job.finalMem, j.read_foldl_of_mem hj j.nodup_coords hc hn ha fun d hd had => Job.eq_of_mem_blockBytes h hd hc had ha]
  exact j.read_writeBlock_congr hj hm hn ha

theorem Job.read_finalMem_of_notMem (j : Job) {a : Addr} (h : a ∉ j.dsetBytes) : j.finalMem.read a = j.s0.read a :=
  j.read_foldl_of_notMem _ _ fun c hc ha => h (Job.mem_dsetBytes.2 ⟨c, hc, ha⟩)

theorem Job.nodup_of_anyValue_false {j : Job} {platform : List Region} (h : j.anyValue platform = false) : j.dsetBytes.Nodup := by
  simp only [Job.anyValue, Job.overlaps, Bool.or_eq_false_iff, Bool.not_eq_false', decide_eq_true_eq] at h
  exact h.1.2.2

/-! ### Elements and addresses -/

theorem esz_pos (f : Format) : 0 < esz f := by cases f <;> decide

theorem esz_le (f : Format) : esz f ≤ 4 := by cases f <;> decide

theorem esz_dvd (f : Format) : (esz f : Int) ∣ 2 ^ 32 := by cases f <;> decide

/-- An address made of aligned parts is aligned, also modulo 2^32 (20_memory R68). -/
theorem elemAddr_aligned {base stride : Word} {f : Format} (hb : base.toNat % esz f = 0) (hs : stride.toNat % esz f = 0)
    (x y : Int) : (elemAddr base stride f x y).toNat % esz f = 0 := by
  rw [elemAddr, BitVec.toNat_ofInt]
  have hb' : (esz f : Int) ∣ base.toNat := Int.natCast_dvd_natCast.2 (Nat.dvd_of_mod_eq_zero hb)
  have hs' : (esz f : Int) ∣ stride.toNat := Int.natCast_dvd_natCast.2 (Nat.dvd_of_mod_eq_zero hs)
  have h : (esz f : Int) ∣ base.toNat + y * stride.toNat + x * esz f :=
    dvd_add (dvd_add hb' (Dvd.dvd.mul_left hs' y)) (Dvd.intro_left x rfl)
  have hp : (0 : Int) < ((2 ^ 32 : Nat) : Int) := by decide
  have h2 := Int.emod_nonneg (base.toNat + y * stride.toNat + x * esz f) hp.ne'
  have h3 : (esz f : Int) ∣ (base.toNat + y * stride.toNat + x * esz f) % ((2 ^ 32 : Nat) : Int) :=
    (EuclideanDomain.dvd_mod_iff (by exact_mod_cast esz_dvd f)).2 h
  refine Nat.mod_eq_zero_of_dvd (Int.natCast_dvd_natCast.1 ?_)
  rwa [Int.toNat_of_nonneg h2]

/-- What a read of an element gives fits the element. -/
theorem isElement_readElem (f : Format) (m : Memory) (a : Addr) : IsElement f (m.readElem (esz f) a) := by
  rw [isElement_iff]
  cases f
  · exact (m.readElem _ a).isLt
  · simp only [Memory.readElem, esz, elemBytes, assemble, Config.endian, BitVec.toNat_ofNat]
    have h0 := (m.read (a + BitVec.ofNat 32 0)).isLt
    have h1 := (m.read (a + BitVec.ofNat 32 1)).isLt
    simp [List.range_succ]
    simp at h0 h1
    omega

/-- An element read back after it was stored (20_memory R62). -/
theorem Memory.readElem_writeElem {m : Memory} (h : m.wf = true) (f : Format) (a : Addr) (v : Word) :
    (m.writeElem (esz f) a v).readElem (esz f) a = px f v := by
  have hb : ∀ k < esz f, (m.writeElem (esz f) a v).read (a + BitVec.ofNat 32 k) = v.extractLsb' (8 * k) 8 := fun k hk =>
    Memory.read_writeElem_byte h ((esz_le f).trans (by decide)) hk a v
  refine BitVec.eq_of_toNat_eq ?_
  have hv := v.isLt
  cases f
  · have h0 := hb 0 (by decide)
    have h1 := hb 1 (by decide)
    have h2 := hb 2 (by decide)
    have h3 := hb 3 (by decide)
    simp only [esz] at h0 h1 h2 h3
    simp only [Memory.readElem, esz, elemBytes, assemble, Config.endian, List.range_succ, List.range_zero, List.nil_append,
      List.cons_append, List.map_cons, List.map_nil, List.foldr_cons, List.foldr_nil, h0, h1, h2, h3, px, BitVec.toNat_ofNat,
      BitVec.extractLsb'_toNat, Nat.shiftRight_eq_div_pow]
    omega
  · have h0 := hb 0 (by decide)
    have h1 := hb 1 (by decide)
    simp only [esz] at h0 h1
    simp only [Memory.readElem, esz, elemBytes, assemble, Config.endian, List.range_succ, List.range_zero, List.nil_append,
      List.cons_append, List.map_cons, List.map_nil, List.foldr_cons, List.foldr_nil, h0, h1, px, BitVec.toNat_ofNat,
      BitVec.extractLsb'_toNat, Nat.shiftRight_eq_div_pow, BitVec.toNat_setWidth]
    omega

/-- The address of a destination element as a sum of naturals (44_render R208). -/
theorem Job.destAddr_eq (j : Job) (x y : Nat) :
    j.destAddr x y = BitVec.ofNat 32 (j.dst.toNat + y * j.dstride.toNat + x * esz j.fmt) := by
  rw [Job.destAddr, elemAddr, ← BitVec.ofInt_natCast]
  push_cast; rfl

/-- The four elements of a computed block fit the element. -/
theorem Job.isElement_block (j : Job) (x y : Nat) :
    IsElement j.fmt (j.block x y).p00 ∧ IsElement j.fmt (j.block x y).p01 ∧ IsElement j.fmt (j.block x y).p10 ∧
      IsElement j.fmt (j.block x y).p11 :=
  isElement_kernel _ _ (isElement_readElem _ _ _) (isElement_readElem _ _ _) (isElement_readElem _ _ _)

end Sys2Proof.Machine
end

