-- ==== Sys2Proof/Laws/Engine.lean ====
section
/-! SUPPORT. What one engine step, one host memory access, a reset and any atomic step can do. -/

namespace Sys2Proof.Machine

/-! ### Engine steps -/

theorem engineStep_none {s : State} (h : s.engine = none) (choice : Option Nat) : engineStep choice s = s := by
  rw [engineStep, h]

theorem engineStep_stuck {s : State} {j : Job} (h : s.engine = some j) (hs : j.stuck = true) (choice : Option Nat) :
    engineStep choice s = s := by
  rw [engineStep, h]
  simp [hs]

/-- With no block left the step completes the RENDER. -/
theorem engineStep_finish {s : State} {j : Job} (h : s.engine = some j) (hs : j.stuck = false) (hr : j.remaining = [])
    (choice : Option Nat) : engineStep choice s = { engineFinish j s with draws := s.draws + 1 } := by
  rw [engineStep, h]
  simp [hs, hr]

/-- With a block left the step takes one that remains. -/
theorem engineStep_block {s : State} {j : Job} (h : s.engine = some j) (hs : j.stuck = false) (hr : j.remaining ≠ [])
    (choice : Option Nat) : ∃ c ∈ j.remaining, engineStep choice s = { engineBlock j c s with draws := s.draws + 1 } := by
  rw [engineStep, h]
  simp only [hs]
  cases hj : j.remaining with
  | nil => exact absurd hj hr
  | cons c cs =>
    exact ⟨pickBlock (choice.getD (Config.freePick s.draws)) c cs, pickBlock_mem _ c cs, rfl⟩

/-- What an engine step can do, whole. -/
theorem engineStep_cases (choice : Option Nat) (s : State) :
    engineStep choice s = s ∨ ∃ j, s.engine = some j ∧ j.stuck = false ∧
      ((j.remaining = [] ∧ engineStep choice s = { engineFinish j s with draws := s.draws + 1 }) ∨
        ∃ c ∈ j.remaining,
          (j.refusedAt s.platform c = true ∧
            engineStep choice s = { s with engine := some { j with stuck := true }, draws := s.draws + 1 }) ∨
          (j.refusedAt s.platform c = false ∧
            engineStep choice s = { s with
              mem := j.writeBlock s.mem c
              engine := some { j with done := insertBlock c j.done }
              draws := s.draws + 1 })) := by
  cases h : s.engine with
  | none => exact .inl (engineStep_none h choice)
  | some j =>
    cases hs : j.stuck with
    | true => exact .inl (engineStep_stuck h hs choice)
    | false =>
      refine .inr ⟨j, rfl, hs, ?_⟩
      by_cases hr : j.remaining = []
      · exact .inl ⟨hr, engineStep_finish h hs hr choice⟩
      · obtain ⟨c, hc, he⟩ := engineStep_block h hs hr choice
        refine .inr ⟨c, hc, ?_⟩
        rw [he, engineBlock]
        cases hf : j.refusedAt s.platform c
        · exact .inr ⟨rfl, by simp⟩
        · exact .inl ⟨rfl, by simp⟩

/-- A step the platform serves, with a block left, does that block. -/
theorem engineStep_served {s : State} {j : Job} (h : s.engine = some j) (hs : j.stuck = false) (hp : j.Served s.platform)
    (hr : j.remaining ≠ []) (choice : Option Nat) : ∃ c ∈ j.remaining, engineStep choice s =
      { s with mem := j.writeBlock s.mem c, engine := some { j with done := insertBlock c j.done }, draws := s.draws + 1 } := by
  obtain ⟨c, hc, he⟩ := engineStep_block h hs hr choice
  refine ⟨c, hc, ?_⟩
  rw [he, engineBlock, hp c (Job.mem_remaining.1 hc).1]
  simp

/-- An engine step changes no register but STATUS, no slot and nothing of the host's. -/
theorem engineStep_same (choice : Option Nat) (s : State) :
    SameRegsExcept [.status] s (engineStep choice s) ∧ (engineStep choice s).slots = s.slots ∧
      (engineStep choice s).platform = s.platform ∧ (engineStep choice s).script = s.script ∧
      (engineStep choice s).hostData = s.hostData := by
  rcases engineStep_cases choice s with e | ⟨j, -, -, ⟨-, e⟩ | ⟨c, -, ⟨-, e⟩ | ⟨-, e⟩⟩⟩ <;> rw [e] <;>
    exact ⟨fun r h => by cases r <;> first | (simp at h; done) | rfl, rfl, rfl, rfl, rfl⟩

/-- An engine step does not look at the script. -/
theorem engineStep_script (choice : Option Nat) (s : State) (x : List Action) :
    engineStep choice { s with script := x } = { engineStep choice s with script := x } := by
  cases s
  simp only [engineStep]
  split
  · rfl
  · split
    · rfl
    · split
      · rfl
      · simp only [engineBlock]
        split <;> rfl

theorem wf_finishMem {s : State} (h : s.mem.wf = true) (j : Job) : (finishMem j s).wf = true := by
  unfold finishMem
  split
  · exact Memory.wf_anyValue h _ _
  · exact h

/-- Completion changes no byte outside the destination. -/
theorem read_finishMem_of_notMem (s : State) {j : Job} {a : Addr} (h : a ∉ j.dsetBytes) :
    (finishMem j s).read a = s.mem.read a := by
  unfold finishMem
  split
  · exact Memory.read_anyValue_of_notMem _ _ h
  · rfl

theorem finishMem_of_defined {s : State} {j : Job} (h : j.anyValue s.platform = false) : finishMem j s = s.mem := by
  simp [finishMem, h]

/-- A run whose first step answers a next state goes on from there. -/
theorem run_succ_next {M : Host.Core} {k : Nat} {s s' : M.State} (h : M.step s = .next s') : M.run (k + 1) s = M.run k s' := by
  rw [Host.Core.run, h]

/-- The engine actions of a script run one after the other. -/
theorem run_engine (choices : List (Option Nat)) (s : State) (rest : List Action) (h : s.script = choices.map .engine ++ rest) :
    Host.Core.run Sys2Proof.core choices.length s =
      .next { choices.foldl (fun u c => engineStep c u) s with script := rest } := by
  induction choices generalizing s with
  | nil =>
    simp only [List.map_nil, List.nil_append] at h
    subst h
    rfl
  | cons c cs ih =>
    have hs : step s = .next { engineStep c s with script := cs.map .engine ++ rest } := by
      rw [step_cons h]
      exact congrArg _ (engineStep_script c s _)
    have e : Host.Core.run Sys2Proof.core (c :: cs).length s =
        Host.Core.run Sys2Proof.core cs.length { engineStep c s with script := cs.map .engine ++ rest } := by
      exact run_succ_next (M := Sys2Proof.core) hs
    rw [e, ih _ rfl, List.foldl_cons]
    congr 1
    have : ∀ (l : List (Option Nat)) (u : State) (x : List Action),
        l.foldl (fun u c => engineStep c u) { u with script := x } = { l.foldl (fun u c => engineStep c u) u with script := x } := by
      intro l
      induction l with
      | nil => intros; rfl
      | cons d l ihl => intro u x; rw [List.foldl_cons, List.foldl_cons, engineStep_script, ihl]
    rw [this]

/-! ### A whole RENDER -/

theorem Job.remaining_eq_nil {j : Job} : j.remaining = [] ↔ ∀ c ∈ j.coords, c ∈ j.done := by
  rw [List.eq_nil_iff_forall_not_mem]
  simp [Job.mem_remaining]

/-- A block done keeps a RENDER coherent. -/
theorem Job.Coherent.insert {j : Job} (h : j.Coherent) {c : Nat × Nat} (hc : c ∈ j.remaining) :
    ({ j with done := insertBlock c j.done } : Job).Coherent := by
  rw [Job.mem_remaining, Job.mem_coords] at hc
  exact { h with
    done_sorted := pairwise_insertBlock h.done_sorted hc.2
    done_inside := fun d hd => by
      rcases mem_insertBlock.1 hd with rfl | hd
      · exact hc.1
      · exact h.done_inside d hd }

/-- Each element of a block reads back as its value. -/
theorem Job.readElem_writeBlock {j : Job} {m : Memory} (hm : m.wf = true) {c : Nat × Nat} (hn : (j.blockBytes c).Nodup) {e : Addr × Word} (he : e ∈ j.blockElems c) (hel : IsElement j.fmt e.2) :
   (j.writeBlock m c).readElem (esz j.fmt) e.1 = e.2 := by
  have : ∀ x ∈ elemBytes (esz j.fmt) e.1, (j.writeBlock m c).read x = (m.writeElem (esz j.fmt) e.1 e.2).read x := by
    intro x hx
    obtain ⟨k, hk, rfl⟩ := mem_elemBytes.1 hx
    rw [Memory.read_writeElem_byte hm ((esz_le _).trans (by decide)) hk]
    exact j.read_writeBlock_of_mem hm hn (e := (e.1 + BitVec.ofNat 32 k, e.2.extractLsb' (8 * k) 8)) (List.mem_flatMap.2 ⟨e, he, mem_elemCells hk e.1 e.2⟩)
  rw [Memory.readElem_congr this, Memory.readElem_writeElem hm]
  exact hel

/-- As many engine steps as blocks remain do them all, in whatever order: no byte outside the destination changes, and where the
destination has no byte twice each remaining block is as written over any memory, and the others are as before. -/
theorem foldl_engineStep_blocks (choices : List (Option Nat)) : ∀ (s : State) (j : Job), s.engine = some j → j.stuck = false → j.Served s.platform →
    choices.length = j.remaining.length →
    ∃ d m n, choices.foldl (fun u c => engineStep c u) s = { s with mem := m, engine := some {j with done := d}, draws := n } ∧
      ({j with done := d} : Job).remaining = [] ∧ (∀ a, a ∉ j.dsetBytes → m.read a = s.mem.read a) ∧
      (s.mem.wf = true → j.dsetBytes.Nodup → m.wf = true ∧ (∀ c ∈ j.remaining, ∀ a ∈ j.blockBytes c, ∀ m' : Memory, m'.wf = true → m.read a = (j.writeBlock m' c).read a)
        ∧ ∀ c ∈ j.coords, c ∉ j.remaining → ∀ a ∈ j.blockBytes c, m.read a = s.mem.read a) := by
  induction choices with
  | nil =>
    intro s j h hs hp hl
    have hr : j.remaining = [] := List.length_eq_zero_iff.1 hl.symm
    refine ⟨j.done, s.mem, s.draws, ?_, hr, fun _ _ => rfl, fun hm hn => ⟨hm, ?_, fun _ _ _ _ _ => rfl⟩⟩
    · rw [List.foldl_nil]; cases s; dsimp only at h; subst h; rfl
    · rw [hr]; simp
  | cons ch cs ih =>
    intro s j h hs hp hl
    have hr : j.remaining ≠ [] := by
      intro e; rw [e] at hl; simp at hl
    obtain ⟨c, hc, he⟩ := engineStep_served h hs hp hr ch
    have hlen := Job.length_remaining_insert hc
    have hcc := (Job.mem_remaining.1 hc).1
    obtain ⟨d, m, n, e, hd, ho, hf⟩ := ih { s with mem := j.writeBlock s.mem c, engine := some { j with done := insertBlock c j.done }, draws := s.draws + 1 }
      { j with done := insertBlock c j.done } rfl hs hp (by rw [List.length_cons] at hl; omega)
    rw [List.foldl_cons, he]
    refine ⟨d, m, n, e, hd, fun a ha => ?_, fun hm hn => ?_⟩
    · rw [ho a ha]
      exact j.read_writeBlock_of_notMem _ fun hb => ha (Job.mem_dsetBytes.2 ⟨c, hcc, hb⟩)
    · obtain ⟨w1, w2, w3⟩ := hf (Job.wf_writeBlock hm j c) hn
      refine ⟨w1, fun x hx a ha m' hm' => ?_, fun x hx hxr a ha => ?_⟩
      · by_cases hxc : x = c
        · subst hxc
          have : x ∉ ({ j with done := insertBlock x j.done } : Job).remaining := by
            rw [Job.mem_remaining]; simp [mem_insertBlock]
          rw [w3 x hcc this a ha]
          exact j.read_writeBlock_congr hm hm' (Job.nodup_blockBytes hn hcc) ha
        · have : x ∈ ({ j with done := insertBlock c j.done } : Job).remaining := by
            rw [Job.mem_remaining] at hx ⊢; simp [mem_insertBlock, hxc]; exact hx
          exact w2 x this a ha m' hm'
      · have hxc : x ≠ c := fun e => hxr (e ▸ hc)
        have : x ∉ ({ j with done := insertBlock c j.done } : Job).remaining := by
            rw [Job.mem_remaining] at hxr ⊢; simp [mem_insertBlock, hxc]; intro hx'; simp at hxr; exact hxr hx'
        rw [w3 x hx this a ha]
        exact j.read_writeBlock_of_notMem _ fun hb => hxc (Job.eq_of_mem_blockBytes hn hx hcc ha hb)

/-- While no more engine steps have been taken than blocks remain, BUSY is 1. -/
theorem busy_foldl_engineStep (choices : List (Option Nat)) : ∀ (s : State) (j : Job), s.engine = some j → j.stuck = false →
    j.Served s.platform → choices.length ≤ j.remaining.length → (choices.foldl (fun u c => engineStep c u) s).busy = true := by
  induction choices with
  | nil => intro s j h _ _ _; simp [State.busy, h]
  | cons ch cs ih =>
    intro s j h hs hp hl
    obtain ⟨c, hc, he⟩ := engineStep_served h hs hp (fun e => by simp [e] at hl) ch
    have := Job.length_remaining_insert hc
    rw [List.foldl_cons, he]
    exact ih _ { j with done := insertBlock c j.done } rfl hs hp (by rw [List.length_cons] at hl; omega)

theorem Job.remaining_of_done_nil {j : Job} (h : j.done = []) : j.remaining = j.coords := by
  simp [Job.remaining, h]

theorem split_last_choice {j : Job} {choices : List (Option Nat)} (h : choices.length = j.w.toNat * j.h.toNat + 1) :
    ∃ cs l, choices = cs ++ [l] ∧ cs.length = j.w.toNat * j.h.toNat := by
  rcases List.eq_nil_or_concat choices with rfl | ⟨cs, l, rfl⟩
  · simp at h
  · exact ⟨cs, l, by simp, by simpa using h⟩

/-- A RENDER from its acceptance to its completion, served by the platform: w·h blocks and the step that completes it. -/
theorem foldl_engineStep_render {s : State} {j : Job} {choices : List (Option Nat)} (ha : JustAccepted j s) (hp : j.Served s.platform)
    (hl : choices.length = j.w.toNat * j.h.toNat + 1) : ∃ d m n n', choices.foldl (fun u c => engineStep c u) s =
      { engineFinish { j with done := d } { s with mem := m, engine := some {j with done := d}, draws := n } with draws := n' } ∧
      (∀ a, a ∉ j.dsetBytes → m.read a = s.mem.read a) ∧
      (s.mem.wf = true → j.dsetBytes.Nodup → m.wf = true ∧ (∀ c ∈ j.coords, ∀ a ∈ j.blockBytes c, ∀ m' : Memory, m'.wf = true → m.read a = (j.writeBlock m' c).read a)) := by
  obtain ⟨cs, l, rfl, hcs⟩ := split_last_choice hl
  obtain ⟨h1, h2, h3, h4⟩ := ha
  obtain ⟨d, m, n, e, hd, ho, hf⟩ := foldl_engineStep_blocks cs s j h1 h3 hp (by rw [Job.remaining_of_done_nil h2, Job.length_coords, hcs])
  rw [List.foldl_append, e, List.foldl_cons, List.foldl_nil, engineStep_finish (j := {j with done := d}) rfl h3 hd]
  rw [Job.remaining_of_done_nil h2] at hf
  exact ⟨d, m, n, n + 1, rfl, ho, fun hm hn => ⟨(hf hm hn).1, (hf hm hn).2.1⟩⟩

/-! ### Host memory accesses and reset -/

/-- A host read of memory that answers changes only the data returned and the draw counter. -/
theorem hostMemRead_next {a : Addr} {size : Size} {s t : State} (h : hostMemRead a size s = .next t) :
    t = { s with
      hostData := BitVec.ofNat 32 (assemble Config.endian ((elemBytes size.bytes a).map (hostByte s)))
      draws := s.draws + 1 } := by
  unfold hostMemRead at h
  split at h
  · cases h
  · split at h
    · cases h
    · injection h with h; exact h.symm

/-- A host write of memory that answers stores its element and notes it against the RENDER in progress. -/
theorem hostMemWrite_next {a : Addr} {size : Size} {v : Word} {s t : State} (h : hostMemWrite a size v s = .next t) :
    t = { s with
      mem := s.mem.writeElem size.bytes a v
      engine := s.engine.map fun j => j.noteWrite (elemBytes size.bytes a) } := by
  unfold hostMemWrite at h
  split at h
  · cases h
  · split at h
    · cases h
    · injection h with h; exact h.symm

/-- A host read of ordinary memory answers. -/
theorem hostMemRead_ok {a : Addr} {size : Size} {s : State} (h : ∀ x ∈ elemBytes size.bytes a,
    inRegion s.platform .refused x = false ∧ inRegion s.platform .sideEffects x = false) :
    hostMemRead a size s = .next { s with
      hostData := BitVec.ofNat 32 (assemble Config.endian ((elemBytes size.bytes a).map (hostByte s)))
      draws := s.draws + 1 } := by
  unfold hostMemRead
  rw [if_neg, if_neg]
  · rw [Bool.not_eq_true, List.any_eq_false]
    exact fun x hx => by simp [(h x hx).2]
  · rw [Bool.not_eq_true, List.any_eq_false]
    exact fun x hx => by simp [(h x hx).1]

/-- A host write of ordinary memory answers. -/
theorem hostMemWrite_ok {a : Addr} {size : Size} {s : State} (v : Word) (h : ∀ x ∈ elemBytes size.bytes a,
    inRegion s.platform .refused x = false ∧ inRegion s.platform .sideEffects x = false) :
    hostMemWrite a size v s = .next { s with
      mem := s.mem.writeElem size.bytes a v
      engine := s.engine.map fun j => j.noteWrite (elemBytes size.bytes a) } := by
  unfold hostMemWrite
  rw [if_neg, if_neg]
  · rw [Bool.not_eq_true, List.any_eq_false]
    exact fun x hx => by simp [(h x hx).2]
  · rw [Bool.not_eq_true, List.any_eq_false]
    exact fun x hx => by simp [(h x hx).1]

/-- What a host read sees of an element of an undisturbed destination: the old bytes or the final ones, all alike. -/
theorem hostByte_destination {s : State} {j : Job} (he : s.engine = some j) (hj : j.Coherent) (hv : j.anyValue s.platform = false)
    {c : Nat × Nat} (hc : c ∈ j.coords) {a : Addr} (ha : a ∈ j.writesOf c) {x : Addr} (hx : x ∈ elemBytes (esz j.fmt) a) :
    hostByte s x = if Config.freeOld s.draws a.toNat then j.s0.read x else j.finalMem.read x := by
  have hal : a.toNat % esz j.fmt = 0 := by
    simp only [Job.writesOf, List.mem_cons, List.not_mem_nil, or_false] at ha
    rcases ha with rfl | rfl | rfl | rfl <;> exact elemAddr_aligned hj.dst_aligned hj.dstride_aligned _ _
  have hd : x ∈ j.dsetBytes := Job.mem_dsetBytes.2 ⟨c, hc, List.mem_flatMap.2 ⟨a, ha, hx⟩⟩
  have hm : x.toNat - x.toNat % esz j.fmt = a.toNat := by
    obtain ⟨k, hk, rfl⟩ := mem_elemBytes.1 hx
    have h1 := a.isLt
    have h2 : k < 4 := hk.trans_le (esz_le _)
    rw [BitVec.toNat_add, BitVec.toNat_ofNat, Nat.mod_eq_of_lt (a := k) (by omega)]
    cases hf : j.fmt <;> rw [hf] at hal hk <;> simp only [esz] at hal hk ⊢ <;> omega
  rw [hostByte, he]
  simp only [hd, if_true, hv, hm]
  rfl

theorem wf_resetMem {s : State} (h : s.mem.wf = true) : (resetMem s).wf = true := by
  unfold resetMem
  split
  · exact h
  · exact Memory.wf_anyValue h _ _

/-- What a reset leaves of memory outside the destination it abandons. -/
theorem read_resetMem (s : State) {a : Addr} (h : ∀ j, s.engine = some j → a ∉ j.dsetBytes) :
    (resetMem s).read a = s.mem.read a := by
  unfold resetMem
  split
  · rfl
  · rename_i j hj
    exact Memory.read_anyValue_of_notMem _ _ (h j hj)

/-- The reset state's memory is in canonical form. -/
theorem wf_reset : State.reset.mem.wf = true := rfl

/-! ### Any atomic step -/

/-- Nothing of the engine and of memory has changed, and DONE and ERR have not come up while BUSY = 1. -/
def Quiet (s t : State) : Prop :=
  t.mem = s.mem ∧ t.engine = s.engine ∧ t.platform = s.platform ∧
    (s.busy = true → t.statusErr = s.statusErr ∧ (s.statusDone = false → t.statusDone = false))

/-- What a request can do: nothing to engine and memory, or complete a command, or begin a RENDER. -/
theorem request_next {c : Word} {s t : State} (h : request c s = .next t) :
    Quiet s t ∨ (s.busy = false ∧ t.engine = none ∧ t.mem = s.mem) ∨
      ∃ inst, s.busy = false ∧ renderCheck inst.fmt s = none ∧ t = startEngine inst (accept c s) := by
  cases hb : s.busy with
  | true =>
    rw [request_busy c hb] at h
    injection h with h
    subst h
    exact .inl ⟨rfl, rfl, rfl, fun _ => ⟨rfl, id⟩⟩
  | false =>
    cases hd : decode c with
    | error e =>
      rw [request_error hb hd] at h
      injection h with h
      subst h
      exact .inr (.inl ⟨rfl, rfl, rfl⟩)
    | ok i =>
      rw [request_ok hb hd] at h
      obtain ⟨t', ht, hc⟩ := exec_next i (accept c s)
      rw [h] at ht
      injection ht with ht
      subst ht
      rcases hc with ⟨e, u, rfl, hm, -⟩ | ⟨slot, inst, -, -, hk, rfl⟩
      · exact .inr (.inl ⟨rfl, rfl, hm⟩)
      · exact .inr (.inr ⟨inst, rfl, hk, rfl⟩)

theorem hostWrite_next {off : BitVec 8} {size : Size} {v : Word} {s t : State} (h : hostWrite off size v s = .next t) :
    Quiet s t ∨ (s.busy = false ∧ t.engine = none ∧ t.mem = s.mem) ∨
      ∃ c inst, s.busy = false ∧ renderCheck inst.fmt s = none ∧ t = startEngine inst (accept c s) := by
  unfold hostWrite at h
  split at h
  · split at h
    · injection h with h
      subst h
      exact .inl ⟨rfl, rfl, rfl, fun _ => ⟨rfl, id⟩⟩
    · rcases request_next h with h | h | ⟨inst, hk⟩
      · exact .inl h
      · exact .inr (.inl h)
      · exact .inr (.inr ⟨v, inst, hk⟩)
    · injection h with h
      subst h
      refine .inl ⟨?_, ?_, ?_, fun _ => ⟨?_, fun hd => ?_⟩⟩
      case refine_5 =>
        unfold storeReg
        split <;> first | exact hd | simp [hd]
      all_goals
        unfold storeReg
        split <;> rfl
  · cases h

theorem hostRead_next {off : BitVec 8} {size : Size} {s t : State} (h : hostRead off size s = .next t) :
    t = { s with hostData := regValue off s } := by
  unfold hostRead at h
  split at h
  · injection h with h; exact h.symm
  · cases h

/-- What an atomic step can do to the engine and to memory, whole. While BUSY = 1 only an engine step or a reset ends a RENDER. -/
theorem act_next {x : Action} {s t : State} (h : act x s = .next t) :
    Quiet s t ∨ (t.engine = none ∧ (s.busy = false ∧ t.mem = s.mem ∨ x = .reset ∧ t.mem = resetMem s)) ∨
      (∃ c inst, s.busy = false ∧ renderCheck inst.fmt s = none ∧ t = startEngine inst (accept c s)) ∨
      (∃ choice, t = engineStep choice s) ∨ (∃ a size v, hostMemWrite a size v s = .next t) := by
  have quiet : ∀ {r : Word} {n : Nat} {p : List Action} {t : State},
      t = { s with hostData := r, draws := n, script := p } → Quiet s t := fun ht => by
    subst ht; exact ⟨rfl, rfl, rfl, fun _ => ⟨rfl, id⟩⟩
  have wr : ∀ {off size v}, hostWrite off size v s = .next t →
      Quiet s t ∨ (t.engine = none ∧ (s.busy = false ∧ t.mem = s.mem ∨ x = .reset ∧ t.mem = resetMem s)) ∨
      (∃ c inst, s.busy = false ∧ renderCheck inst.fmt s = none ∧ t = startEngine inst (accept c s)) ∨
      (∃ choice, t = engineStep choice s) ∨ (∃ a size v, hostMemWrite a size v s = .next t) := fun h => by
    rcases hostWrite_next h with h | h | h
    · exact .inl h
    · exact .inr (.inl ⟨h.2.1, .inl ⟨h.1, h.2.2⟩⟩)
    · exact .inr (.inr (.inl h))
  cases x with
  | regRead off size => exact .inl (quiet (hostRead_next h))
  | regWrite off size v => exact wr h
  | busRead a size =>
    change busRead a size s = _ at h
    unfold busRead at h
    split at h
    · exact .inl (quiet (hostRead_next h))
    · split at h
      · cases h
      · exact .inl (quiet (hostMemRead_next h))
  | busWrite a size v =>
    change busWrite a size v s = _ at h
    unfold busWrite at h
    split at h
    · exact wr h
    · split at h
      · cases h
      · exact .inr (.inr (.inr (.inr ⟨a, size, v, h⟩)))
  | memRead a size => exact .inl (quiet (hostMemRead_next h))
  | memWrite a size v => exact .inr (.inr (.inr (.inr ⟨a, size, v, h⟩)))
  | engine choice =>
    injection h with h
    exact .inr (.inr (.inr (.inl ⟨choice, h.symm⟩)))
  | waitIdle =>
    injection h with h
    subst h
    refine .inl ?_
    unfold pollIdle
    split <;> exact ⟨rfl, rfl, rfl, fun _ => ⟨rfl, id⟩⟩
  | checkOk =>
    change checkOk s = _ at h
    unfold checkOk at h
    split at h
    · injection h with h
      exact .inl (quiet h.symm)
    · cases h
  | reset =>
    injection h with h
    subst h
    exact .inr (.inl ⟨rfl, .inr ⟨rfl, rfl⟩⟩)

/-- What a step can do to the engine and to memory, whole: `u` is the state less the action that is taken. -/
theorem step_next {s t : State} (h : step s = .next t) :
    ∃ u : State, u.mem = s.mem ∧ u.engine = s.engine ∧ u.platform = s.platform ∧ u.statusDone = s.statusDone ∧
      u.statusErr = s.statusErr ∧ (Quiet u t ∨
      (t.engine = none ∧ (u.busy = false ∧ t.mem = u.mem ∨ s.script.head? = some .reset ∧ t.mem = resetMem u)) ∨
      (∃ c inst, u.busy = false ∧ renderCheck inst.fmt u = none ∧ t = startEngine inst (accept c u)) ∨
      (∃ choice, t = engineStep choice u) ∨ (∃ a size v, hostMemWrite a size v u = .next t)) := by
  cases hs : s.script with
  | nil =>
    rw [step_nil hs] at h
    injection h with h
    exact ⟨s, rfl, rfl, rfl, rfl, rfl, .inr (.inr (.inr (.inl ⟨none, h.symm⟩)))⟩
  | cons x rest =>
    rw [step_cons hs] at h
    refine ⟨{ s with script := rest }, rfl, rfl, rfl, rfl, rfl, ?_⟩
    rw [List.head?_cons, Option.some_inj]
    exact act_next h

/-! ### RENDER checks -/

/-- A RENDER that passes every check (44_render R202). -/
theorem renderCheck_none {f : Format} {s : State} : renderCheck f s = none ↔
    s.width ≠ 0#16 ∧ s.height ≠ 0#16 ∧ s.srcAddr.toNat % esz f = 0 ∧ s.dstAddr.toNat % esz f = 0 ∧
      s.srcStride.toNat % esz f = 0 ∧ s.dstStride.toNat % esz f = 0 ∧ s.width.toNat * esz f ≤ s.srcStride.toNat ∧
      2 * s.width.toNat * esz f ≤ s.dstStride.toNat := by
  unfold renderCheck misaligned strideTooSmall
  split_ifs with h1 h2 h3 <;> simp_all <;> first | tauto | omega

theorem misaligned_iff {e : Nat} {s : State} : misaligned e s = true ↔
    ¬ (e ∣ s.srcAddr.toNat ∧ e ∣ s.dstAddr.toNat ∧ e ∣ s.srcStride.toNat ∧ e ∣ s.dstStride.toNat) := by
  simp [misaligned, Nat.dvd_iff_mod_eq_zero]
  tauto

end Sys2Proof.Machine
end

