-- ==== Sys2Proof/Laws/PerInstr.lean ====
section
/-! SUPPORT. One fact of syntax for each constructor of `Instr`: the shape of its command word. -/

open Sys2Proof.Machine

namespace Sys2Proof.Laws.EncodingShape

/-- 30_encoding R91, R92, R97: the word of a well-formed command has no reserved bit, nothing outside its opcode's used fields, and an
opcode of the table. -/
def Statement (i : Instr) : Prop :=
  i.wf = true →
    encode i &&& 0xFFFCE000#32 = 0#32 ∧ encode i &&& usedBits i = encode i ∧ (encode i &&& 0xFF#32).toNat ∈ assignedOps

/-- The commands that use SLOT only. -/
theorem slot_shape : ∀ op ∈ [4, 5, 6, 7], ∀ slot < 16,
    commandWord 0 .a slot op &&& 0xFFFCE000#32 = 0#32 ∧
      commandWord 0 .a slot op &&& 0x00000FFF#32 = commandWord 0 .a slot op ∧
      (commandWord 0 .a slot op &&& 0xFF#32).toNat ∈ assignedOps := by decide

/-- The commands that use FMT only. -/
theorem fmt_shape : ∀ op ∈ [0x10, 0x11, 0x12, 0x13], ∀ fmt < 4,
    commandWord fmt .a 0 op &&& 0xFFFCE000#32 = 0#32 ∧
      commandWord fmt .a 0 op &&& 0x000300FF#32 = commandWord fmt .a 0 op ∧
      (commandWord fmt .a 0 op &&& 0xFF#32).toNat ∈ assignedOps := by decide

/-- The commands that use DESC and FMT. -/
theorem desc_shape : ∀ op ∈ [3, 0x14], ∀ desc ∈ [Desc.a, Desc.b], ∀ fmt < 4,
    commandWord fmt desc 0 op &&& 0xFFFCE000#32 = 0#32 ∧
      commandWord fmt desc 0 op &&& 0x000310FF#32 = commandWord fmt desc 0 op ∧
      (commandWord fmt desc 0 op &&& 0xFF#32).toNat ∈ assignedOps := by decide

theorem mem_descs (d : Desc) : d ∈ [Desc.a, Desc.b] := by cases d <;> simp

theorem nop : Statement .nop := fun _ => by decide

theorem qinfmt : Statement .qinfmt := fun _ => by decide

theorem qoutfmt : Statement .qoutfmt := fun _ => by decide

theorem create (desc : Desc) (fmt : Nat) : Statement (.create desc fmt) :=
  fun h => desc_shape 3 (by simp) desc (mem_descs desc) fmt (of_decide_eq_true h)

theorem destroy (slot : Nat) : Statement (.destroy slot) := fun h => slot_shape 4 (by simp) slot (of_decide_eq_true h)

theorem outsize (slot : Nat) : Statement (.outsize slot) := fun h => slot_shape 5 (by simp) slot (of_decide_eq_true h)

theorem firstpass (slot : Nat) : Statement (.firstpass slot) := fun h => slot_shape 6 (by simp) slot (of_decide_eq_true h)

theorem render (slot : Nat) : Statement (.render slot) := fun h => slot_shape 7 (by simp) slot (of_decide_eq_true h)

theorem blend2 (fmt : Nat) : Statement (.blend2 fmt) := fun h => fmt_shape 0x10 (by simp) fmt (of_decide_eq_true h)

theorem blend4 (fmt : Nat) : Statement (.blend4 fmt) := fun h => fmt_shape 0x11 (by simp) fmt (of_decide_eq_true h)

theorem cmp (fmt : Nat) : Statement (.cmp fmt) := fun h => fmt_shape 0x12 (by simp) fmt (of_decide_eq_true h)

theorem classify (fmt : Nat) : Statement (.classify fmt) := fun h => fmt_shape 0x13 (by simp) fmt (of_decide_eq_true h)

theorem block (desc : Desc) (fmt : Nat) : Statement (.block desc fmt) :=
  fun h => desc_shape 0x14 (by simp) desc (mem_descs desc) fmt (of_decide_eq_true h)

end Sys2Proof.Laws.EncodingShape
end

