-- ==== Sys2Proof/Tests/Slice0.lean ====
section
/-! SUPPORT. The model's own tests: ill-formed terms, words written out from 30_encoding R91 and R97, single steps with the results of
95_test_vectors, and for each claim with hypotheses a state and operands that meet them. -/

open Sys2Proof Sys2Proof.Machine

namespace Sys2Proof.Tests

/-! ### Ill-formed terms -/

theorem test_wf_refuses_create_fmt : (Instr.create .a 4).wf = false := by decide
theorem test_wf_refuses_destroy_slot : (Instr.destroy 16).wf = false := by decide
theorem test_wf_refuses_outsize_slot : (Instr.outsize 16).wf = false := by decide
theorem test_wf_refuses_firstpass_slot : (Instr.firstpass 16).wf = false := by decide
theorem test_wf_refuses_render_slot : (Instr.render 16).wf = false := by decide
theorem test_wf_refuses_blend2_fmt : (Instr.blend2 4).wf = false := by decide
theorem test_wf_refuses_blend4_fmt : (Instr.blend4 4).wf = false := by decide
theorem test_wf_refuses_cmp_fmt : (Instr.cmp 4).wf = false := by decide
theorem test_wf_refuses_classify_fmt : (Instr.classify 4).wf = false := by decide
theorem test_wf_refuses_block_fmt : (Instr.block .b 4).wf = false := by decide

/-! ### Words written out, bit 31 first: RSV1 (14), FMT (2), RSV0 (3), DESC (1), SLOT (4), OP (8) -/

theorem test_decode_nop : decode 0b00000000000000000000000000000000#32 = .ok .nop := by decide
theorem test_decode_qinfmt : decode 0b00000000000000000000000000000001#32 = .ok .qinfmt := by decide
theorem test_decode_qoutfmt : decode 0b00000000000000000000000000000010#32 = .ok .qoutfmt := by decide
theorem test_decode_create : decode 0b00000000000000100001000000000011#32 = .ok (.create .b 2) := by decide
theorem test_decode_destroy : decode 0b00000000000000000000101000000100#32 = .ok (.destroy 10) := by decide
theorem test_decode_outsize : decode 0b00000000000000000000010100000101#32 = .ok (.outsize 5) := by decide
theorem test_decode_firstpass : decode 0b00000000000000000000100100000110#32 = .ok (.firstpass 9) := by decide
theorem test_decode_render : decode 0b00000000000000000000111100000111#32 = .ok (.render 15) := by decide
theorem test_decode_blend2 : decode 0b00000000000000110000000000010000#32 = .ok (.blend2 3) := by decide
theorem test_decode_blend4 : decode 0b00000000000000010000000000010001#32 = .ok (.blend4 1) := by decide
theorem test_decode_cmp : decode 0b00000000000000100000000000010010#32 = .ok (.cmp 2) := by decide
theorem test_decode_classify : decode 0b00000000000000010000000000010011#32 = .ok (.classify 1) := by decide
theorem test_decode_block : decode 0b00000000000000010001000000010100#32 = .ok (.block .b 1) := by decide
/-- Vector V-E2: the unused fields of NOP are ignored. -/
theorem test_decode_unused_fields : decode 0x00031F00#32 = .ok .nop := by decide
/-- Vectors V-E7, V-E8, V-E9. -/
theorem test_decode_reserved : decode 0x00002000#32 = .error .reservedBits ∧ decode 0x00040000#32 = .error .reservedBits ∧
    decode 0x80000000#32 = .error .reservedBits := by decide
/-- Vectors V-E10, V-E11, V-E12. -/
theorem test_decode_unassigned : decode 0x00000008#32 = .error .unassignedOp ∧ decode 0x00000015#32 = .error .unassignedOp ∧
    decode 0x000000FF#32 = .error .unassignedOp := by decide
theorem test_encode_create : encode (.create .b 2) = 0x00021003#32 := by decide
theorem test_encode_render : encode (.render 2) = 0x00000207#32 := by decide

/-! ### Small states -/

/-- What an outcome's next state shows. -/
def shown (f : State → Word) : Host.Outcome State Fault Refusal → Option Word
  | .next s => some (f s)
  | _ => none

/-- The reset state with one instance live in slot 0. -/
def live (f : Format) (d : Desc) : State := setSlot 0 (some ⟨f, d⟩) State.reset

/-- The reset state with four operands. -/
def operands (a b c d : Word) : State := { State.reset with opa := a, opb := b, opc := c, opd := d }

/-- The window of program P3 and vector V-K4: A = D = I = P = 0x1111, every other element 0x2222. -/
def lineWindow : State :=
  { State.reset with win := #v[0x1111#32, 0x2222#32, 0x2222#32, 0x2222#32, 0x2222#32, 0x1111#32, 0x2222#32, 0x2222#32,
      0x2222#32, 0x2222#32, 0x1111#32, 0x2222#32, 0x2222#32, 0x2222#32, 0x2222#32, 0x1111#32] }

/-- The checkerboard window of vector V-K7. -/
def checkerWindow : State :=
  { State.reset with win := #v[0x1111#32, 0x2222#32, 0x1111#32, 0x2222#32, 0x2222#32, 0x1111#32, 0x2222#32, 0x1111#32,
      0x1111#32, 0x2222#32, 0x1111#32, 0x2222#32, 0x2222#32, 0x1111#32, 0x2222#32, 0x1111#32] }

/-- The state before the RENDER of program P1: the 2x2 source at 0x1000, the destination at 0x2000. -/
def beforeRender : State :=
  { live .rgb565 .a with
    width := 2#16, height := 2#16, srcAddr := 0x1000#32, srcStride := 4#32, dstAddr := 0x2000#32, dstStride := 8#32
    mem := [(0x1000, 0x11#8), (0x1001, 0x11#8), (0x1002, 0x22#8), (0x1003, 0x22#8), (0x1004, 0x22#8), (0x1005, 0x22#8),
      (0x1006, 0x11#8), (0x1007, 0x11#8)] }

/-- A RENDER of a one by one source at 0x1000 to 0x2000. -/
def smallRender : State :=
  { live .rgb565 .a with
    width := 1#16, height := 1#16, srcAddr := 0x1000#32, srcStride := 2#32, dstAddr := 0x2000#32, dstStride := 4#32
    mem := [(0x1000, 0x11#8), (0x1001, 0x11#8)] }

/-- The job it latches. -/
def smallJob : Job := latch ⟨.rgb565, .a⟩ smallRender

/-- The state after its acceptance. -/
def rendering : State := startEngine ⟨.rgb565, .a⟩ smallRender

/-! ### Single steps, with the results of 95_test_vectors -/

/-- V-REG1. -/
theorem test_nop : shown statusWord (exec .nop State.reset) = some 0x00000002#32 := by decide
/-- V-REG2. -/
theorem test_qinfmt : shown (·.result) (exec .qinfmt State.reset) = some 0x00000003#32 := by decide
/-- V-REG3. -/
theorem test_qoutfmt : shown (·.result) (exec .qoutfmt (operands 0xFFFFFFFF#32 0#32 0#32 0#32)) = some 0x00000003#32 := by decide
/-- V-REG5. -/
theorem test_create : shown slotcfgWord (exec (.create .b 2) State.reset) = some 0x00000006#32 := by decide
/-- V-REG6. -/
theorem test_create_config : shown (·.result) (exec (.create .a 0) State.reset) = some 0xFFFFFFFF#32 ∧
    shown statusWord (exec (.create .a 0) State.reset) = some 0x00000202#32 := by decide
theorem test_destroy : shown slotsWord (exec (.destroy 0) (live .rgb565 .b)) = some 0#32 := by decide
/-- V-REG8. -/
theorem test_destroy_none : shown statusWord (exec (.destroy 0) State.reset) = some 0x00000402#32 := by decide
/-- V-REG10, V-X3: 65535 doubles to 0x0001FFFE. -/
theorem test_outsize : shown (·.outw) (exec (.outsize 0) { live .rgb565 .a with width := 0xFFFF#16, height := 240#16 }) =
    some 0x0001FFFE#32 := by decide
/-- V-REG11. -/
theorem test_outsize_zero : shown statusWord (exec (.outsize 0) { live .rgb565 .a with height := 240#16 }) =
    some 0x00000502#32 := by decide
/-- V-REG13. -/
theorem test_firstpass_slot9 : shown statusWord (exec (.firstpass 9) (live .rgb565 .a)) = some 0x00000402#32 := by decide
/-- V-REG12. -/
theorem test_firstpass : shown statusWord (exec (.firstpass 0) (live .rgb565 .a)) = some 0x00000002#32 := by decide
/-- V-RN9: a stride of 30 is misaligned before it is too small. -/
theorem test_render_align : shown statusWord (exec (.render 0) { live .xrgb8888 .a with
    width := 4#16, height := 4#16, srcStride := 16#32, dstStride := 30#32 }) = some 0x00000602#32 := by decide
/-- Program P1: the RENDER is accepted. -/
theorem test_render : shown statusWord (exec (.render 0) beforeRender) = some 0x00000001#32 := by decide
/-- V-X2, with the value 90_conflicts C1 settles. -/
theorem test_blend2_rgb : shown (·.result) (exec (.blend2 2) (operands 0x0000#32 0x0842#32 0#32 0#32)) = some 0x0021#32 := by decide
/-- V-B2-4. -/
theorem test_blend2_xrgb : shown (·.result) (exec (.blend2 1) (operands 0x80FF7F01#32 0x7F00FF03#32 0#32 0#32)) =
    some 0x7F7FBF02#32 := by decide
/-- V-B4-6, 90_conflicts C6. -/
theorem test_blend4_rgb : shown (·.result) (exec (.blend4 2) (operands 1#32 2#32 0#32 1#32)) = some 1#32 := by decide
/-- V-B4-5. -/
theorem test_blend4_xrgb : shown (·.result) (exec (.blend4 1) (operands 0x11223344#32 0x55667788#32 0x99AABBCC#32 0xDDEEFF00#32)) =
    some 0x77889966#32 := by decide
/-- V-CMP2. -/
theorem test_cmp_minus : shown (·.result) (exec (.cmp 2) (operands 1#32 2#32 1#32 1#32)) = some 0xFFFFFFFF#32 := by decide
/-- V-CMP6 and V-CMP7: the high half counts for XRGB8888 only. -/
theorem test_cmp_width : shown (·.result) (exec (.cmp 2) (operands 0x00010000#32 0#32 5#32 5#32)) = some 0#32 ∧
    shown (·.result) (exec (.cmp 1) (operands 0x00010000#32 0#32 0#32 0#32)) = some 1#32 := by decide
/-- Program P3. -/
theorem test_classify : shown (·.result) (exec (.classify 2) lineWindow) = some 0x00000302#32 := by decide
/-- 41_classifier R138: an all-equal window. -/
theorem test_classify_flat : shown (·.result) (exec (.classify 1) State.reset) = some 0x00000003#32 := by decide
/-- V-K7: the tie of a DIAG window, kernel B. -/
theorem test_block_b_tie : shown (·.p3) (exec (.block .b 2) checkerWindow) = some 0x0000114D#32 := by decide
/-- V-K7, kernel A. -/
theorem test_block_a_tie : shown (·.p3) (exec (.block .a 2) checkerWindow) = some 0x00001989#32 := by decide
/-- Program P1: the engine's block (0, 0), its element (1, 0). -/
theorem test_engine_block :
    (engineStep (some 0) (startEngine ⟨.rgb565, .a⟩ beforeRender)).mem.readElem 2 0x2002#32 = 0x1989#32 := by decide
/-- V-RN8: a destination that wraps past the top of the address space. -/
theorem test_engine_wrap : (engineStep (some 0) { rendering with engine := some { smallJob with dst := 0xFFFFFFFC#32 } }).mem.readElem 2
    0x00000002#32 = 0x1111#32 := by decide
/-- V-S7. -/
theorem test_status_write : shown statusWord (hostWrite 0x0C#8 .word 0xFFFFFFFF#32 { State.reset with statusDone := true }) =
    some 0#32 := by decide
/-- V-S10: a request during BUSY. -/
theorem test_overrun : shown statusWord (request 0#32 rendering) = some 0x00000005#32 := by decide
/-- V-REG14. -/
theorem test_width_write : shown (readReg .width) (hostWrite 0x30#8 .word 0x12345678#32 State.reset) = some 0x00005678#32 := by decide
/-- The placed word runs in the very next step after reset. -/
theorem test_withFetchWord : shown slotcfgWord (step (State.reset.withFetchWord 32 0x00021003)) = some 0x00000006#32 := by decide

/-- A claim about every address of a list, decided on the list. -/
theorem forall_mem_of {P : Addr → Prop} [DecidablePred P] {l : List Addr} (h : l.all (fun x => decide (P x)) = true) : ∀ x ∈ l, P x :=
  fun x hx => of_decide_eq_true (List.all_eq_true.1 h x hx)

/-! ### Witnesses: for each claim with hypotheses, a state and operands that meet all of them; each clause at the ends of its range -/

theorem witness_DecodeOfEncodeIsTheCommand : (Instr.block .b 3).wf = true ∧ (Instr.render 15).wf = true ∧ (Instr.create .a 0).wf = true := by
  decide
theorem witness_DecodedWordIsTheCommandOnItsUsedBits :
    decode 0x00031F00#32 = .ok .nop ∧ decode 0x00031F14#32 = .ok (.block .b 3) := by decide
theorem witness_IllegalWordsAreReservedBitsOrUnassignedOps :
    decode 0x00002000#32 = .error .reservedBits ∧ 0x00002000#32 &&& 0xFFFCE000#32 ≠ 0#32 ∧
      decode 0x00000015#32 = .error .unassignedOp ∧ (0x00000015#32 &&& 0xFF#32).toNat ∉ assignedOps := by decide

/-- The state whose next action is a host write of a word to CMD. -/
def commanded (s : State) (c : Word) : State := { s with script := [.regWrite 0x10#8 .word c] }

theorem witness_StepRunsTheDecodedCommand :
    ((commanded State.reset 0x00021003#32).script = .regWrite 0x10#8 .word 0x00021003#32 :: [] ∧
      (commanded State.reset 0x00021003#32).busy = false ∧ decode 0x00021003#32 = .ok (.create .b 2)) ∧
    decodeTableWord 32 0x00021014 = some (.block .b 2) := by decide
theorem witness_IllegalWordFailsWithEIllegalOnly :
    (commanded State.reset 0x80000000#32).script = .regWrite 0x10#8 .word 0x80000000#32 :: [] ∧
      (commanded State.reset 0x80000000#32).busy = false ∧ 0x80000000#32 &&& 0xFFFCE000#32 ≠ 0#32 ∧
      0x00002000#32 &&& 0xFFFCE000#32 ≠ 0#32 ∧ (0x00000008#32 &&& 0xFF#32).toNat ∉ assignedOps ∧
      (0x000000FF#32 &&& 0xFF#32).toNat ∉ assignedOps := by decide
theorem witness_CmdWriteWhileBusyOnlySetsOvr :
    (commanded rendering 0#32).script = .regWrite 0x10#8 .word 0#32 :: [] ∧ (commanded rendering 0#32).busy = true := by decide
theorem witness_OnlyAlignedWordAccessesAreDefined :
    (Size.half ≠ .word ∨ (0x00#8).toNat % 4 ≠ 0) ∧ (Size.word ≠ .word ∨ (0xFF#8).toNat % 4 ≠ 0) ∧
      (Size.word = .word ∧ (0x00#8).toNat % 4 = 0) ∧ (Size.word = .word ∧ (0xFC#8).toNat % 4 = 0) := by decide
theorem witness_RegisterMapHasEachRegisterAtItsOffset :
    ((0x00#8).toNat % 4 = 0 ∧ (0x00#8).toNat ≤ 0x9C) ∧ ((0x9C#8).toNat % 4 = 0 ∧ (0x9C#8).toNat ≤ 0x9C) := by decide
theorem witness_ReadOnlyAndReservedWritesAreIgnored :
    Reg.p3 ∈ [Reg.id, .caps, .result, .slots, .slotcfg, .outw, .outh, .p0, .p1, .p2, .p3] ∧
      (0xA0 ≤ (0xA0#8).toNat ∧ (0xA0#8).toNat % 4 = 0) ∧ (0xA0 ≤ (0xFC#8).toNat ∧ (0xFC#8).toNat % 4 = 0) ∧
      (Reg.height, 0xFFFF0000#32) ∈ [(Reg.ctrl, 0xFFFFFFFC#32), (.status, 0xFFFFF0F8#32), (.width, 0xFFFF0000#32),
        (.height, 0xFFFF0000#32)] := by decide
theorem witness_WriteToReadWriteRegisterReadsBackAndChangesNoOther : ∀ r ∈ [Reg.ctrl, .srcAddr, .width, .height, .opd, .win 0, .win 15],
    r ∉ [Reg.id, .caps, .status, .cmd, .result, .slots, .slotcfg, .outw, .outh, .p0, .p1, .p2, .p3] := by decide
theorem witness_SlotsAndSlotcfgShowTheInstances :
    instAt (live .rgb565 .b) 0 = some ⟨.rgb565, .b⟩ ∧ slotValid (live .rgb565 .b) 3 = false ∧ 0 < 4 ∧ 3 < 4 ∧ 4 ≤ 7 ∧ 7 < 8 := by decide

/-- DONE and IE both up. -/
def interrupting : State := { State.reset with statusDone := true, ctrlIe := true }

theorem witness_InterruptLineFollowsCompletionAndAcknowledge :
    (exec .nop State.reset = .next (complete .eNone State.reset) ∧ (complete .eNone State.reset).busy = false) ∧
      ((0x2#32).getLsbD 1 = true ∧ hostWrite 0x0C#8 .word 0x2#32 interrupting = .next (writeStatus 0x2#32 interrupting)) ∧
      hostWrite 0x08#8 .word 0x2#32 interrupting = .next (writeCtrl 0x2#32 interrupting) := ⟨⟨rfl, rfl⟩, ⟨rfl, rfl⟩, rfl⟩
theorem witness_QueriesAndHooksComplete : instAt (live .xrgb8888 .a) 0 = some ⟨.xrgb8888, .a⟩ := by decide

/-- Slots 0 to 2 live. -/
def threeLive : State :=
  setSlot 0 (some ⟨.xrgb8888, .a⟩) (setSlot 1 (some ⟨.rgb565, .b⟩) (setSlot 2 (some ⟨.rgb565, .a⟩) State.reset))

/-- Every slot live. -/
def fourLive : State := setSlot 3 (some ⟨.xrgb8888, .b⟩) threeLive

theorem witness_CreateTakesTheLeastFreeSlot :
    ((2 = 1 ∧ Format.rgb565 = .xrgb8888 ∨ 2 = 2 ∧ Format.rgb565 = .rgb565) ∧ 0 < Config.nslot ∧ instAt State.reset 0 = none ∧
      (∀ k < 0, instAt State.reset k ≠ none)) ∧
    (3 < Config.nslot ∧ instAt threeLive 3 = none ∧ ∀ k < 3, instAt threeLive k ≠ none) := by decide
theorem witness_CreateFailsWithTheNullInstance :
    (0 ≠ 1 ∧ 0 ≠ 2) ∧ (3 ≠ 1 ∧ 3 ≠ 2) ∧ (2 = 1 ∨ 2 = 2) ∧ ∀ i < Config.nslot, instAt fourLive i ≠ none := by decide
theorem witness_DestroyFreesItsSlotOnce :
    instAt fourLive 0 = some ⟨.xrgb8888, .a⟩ ∧ instAt fourLive 3 = some ⟨.xrgb8888, .b⟩ := by decide

/-- A live slot and the largest dimensions. -/
def largest : State := { live .rgb565 .a with width := 0xFFFF#16, height := 0xFFFF#16 }

theorem witness_OutsizeDoublesTheDimensions :
    (instAt largest 0 = some ⟨.rgb565, .a⟩ ∧ readReg .width largest ≠ 0#32 ∧ readReg .height largest ≠ 0#32) ∧
      (instAt (live .rgb565 .a) 0 = some ⟨.rgb565, .a⟩ ∧ readReg .width (live .rgb565 .a) = 0#32) := by decide
theorem witness_CommandOnAMissingSlotFailsWithENoslot :
    Config.nslot ≤ 4 ∧ Config.nslot ≤ 15 ∧ slotValid State.reset 0 = false ∧
      Instr.render 4 ∈ [Instr.destroy 4, .outsize 4, .firstpass 4, .render 4] := by decide
theorem witness_CommandsOnOneSlotIgnoreTheOthers :
    0 ≠ 3 ∧ Instr.destroy 0 ∈ [Instr.destroy 0, .outsize 0, .firstpass 0, .render 0] := by decide
theorem witness_UnknownFormatFailsWithEConfig : (0 ≠ 1 ∧ 0 ≠ 2) ∧ (3 ≠ 1 ∧ 3 ≠ 2) ∧
    Instr.cmp 3 ∈ [Instr.blend2 3, .blend4 3, .cmp 3, .classify 3, .block .a 3] := by decide

/-- The formats' hypothesis of BLEND2, BLEND4, CMP, CLASSIFY and BLOCK, at both formats; those claims ask nothing else of the state. -/
theorem both_formats : (1 = 1 ∧ Format.xrgb8888 = .xrgb8888 ∨ 1 = 2 ∧ Format.xrgb8888 = .rgb565) ∧
    (2 = 1 ∧ Format.rgb565 = .xrgb8888 ∨ 2 = 2 ∧ Format.rgb565 = .rgb565) := by decide
theorem witness_Blend2AveragesEachChannel : (2 = 1 ∧ Format.rgb565 = .xrgb8888 ∨ 2 = 2 ∧ Format.rgb565 = .rgb565) ∧
    (24, 8) ∈ channels .xrgb8888 ∧ (11, 5) ∈ channels .rgb565 := by decide
theorem witness_Blend4AveragesEachChannel : (1 = 1 ∧ Format.xrgb8888 = .xrgb8888 ∨ 1 = 2 ∧ Format.xrgb8888 = .rgb565) ∧
    (0, 8) ∈ channels .xrgb8888 ∧ (5, 6) ∈ channels .rgb565 := by decide
theorem witness_ClassifyReportsCaseAndVote : 1 = 1 ∧ Format.xrgb8888 = .xrgb8888 ∨ 1 = 2 ∧ Format.xrgb8888 = .rgb565 := by decide
theorem witness_BlockPutsTheKernelInP0ToP3 : 2 = 1 ∧ Format.rgb565 = .xrgb8888 ∨ 2 = 2 ∧ Format.rgb565 = .rgb565 := by decide
theorem witness_BlendsAreSymmetricAndIdempotent :
    List.Perm [1#32, 2#32, 3#32, 4#32] [4#32, 3#32, 2#32, 1#32] ∧ IsElement .rgb565 0xFFFF#32 ∧ IsElement .xrgb8888 0xFFFFFFFF#32 := by
  decide
/-- The three clauses of CMP: +1, -1 and 0. -/
theorem witness_CmpAnswersTheDirectionalComparison : (2 = 1 ∧ Format.rgb565 = .xrgb8888 ∨ 2 = 2 ∧ Format.rgb565 = .rgb565) ∧
    (2#32 = 2#32 ∧ 2#32 = 2#32 ∧ 1#32 ≠ 2#32) ∧ (1#32 = 1#32 ∧ 1#32 = 1#32 ∧ 1#32 ≠ 2#32) ∧
      (¬(3#32 = 2#32 ∧ 3#32 = 2#32 ∧ 1#32 ≠ 2#32) ∧ ¬(3#32 = 1#32 ∧ 3#32 = 1#32 ∧ 1#32 ≠ 2#32)) := by decide
theorem witness_CaseAndVoteDependOnEqualitiesOnly : ∀ x y : Word, x + 1#32 = y + 1#32 → x = y := fun _ _ h => (BitVec.add_left_inj _).1 h

/-- The windows of V-K4 and V-K7, and an EDGE window. -/
def lineW : Window := winWindow .rgb565 lineWindow
def checkerW : Window := winWindow .rgb565 checkerWindow
def edgeW : Window := { lineW with c := 0x1111#32 }
/-- A GENERIC window of three colours. -/
def genericW : Window := { lineW with b := 0x3333#32 }

/-- Each of the three cases has a window. -/
theorem witness_CasesAreCharacterisedByTheCentre : caseOf edgeW = .edge ∧ caseOf lineW = .diag ∧ caseOf genericW = .generic := by decide
theorem witness_KernelOutputsStayInTheAlphabet : 0x114D#32 ∈ [(kernel .b .rgb565 checkerW).p00, (kernel .b .rgb565 checkerW).p01,
    (kernel .b .rgb565 checkerW).p10, (kernel .b .rgb565 checkerW).p11] := by decide
theorem witness_EdgeIsBroadcastAndDiagonalFollowsTheVote :
    (edgeW.a = edgeW.b ∧ edgeW.a ≠ edgeW.c ∨ edgeW.a ≠ edgeW.b ∧ edgeW.a = edgeW.c) ∧
      (lineW.a = lineW.d ∧ lineW.b = lineW.c ∧ lineW.a ≠ lineW.b ∧ 0 < vote lineW) ∧
      (checkerW.a = checkerW.d ∧ checkerW.b = checkerW.c ∧ checkerW.a ≠ checkerW.b ∧ vote checkerW = 0) := by decide
/-- The negative vote: A = D = I = P = 0x1111 swapped for the other diagonal. -/
theorem witness_EdgeIsBroadcastAndDiagonalFollowsTheVote_negative :
    let w : Window := ⟨2#32, 2#32, 2#32, 1#32, 2#32, 2#32, 1#32, 2#32, 2#32, 1#32, 2#32, 2#32, 1#32, 2#32, 2#32, 2#32⟩
    w.a = w.d ∧ w.b = w.c ∧ w.a ≠ w.b ∧ vote w = -3 := by decide
theorem witness_KernelBTakesAColourOnTwoDiagonals : caseOf genericW = .generic := by decide
theorem witness_KernelATakesTheMajorityUnlessARunIsCut : caseOf { genericW with b := 0x1111#32, c := 0x1111#32 } = .generic := by decide
theorem witness_FlatEdgeAndLineWindowsStaySharp : IsElement .rgb565 0x1111#32 ∧ 0x1111#32 ≠ 0x2222#32 := by decide
theorem witness_BlockIgnoresTheRegistersOutsideItsReadSet : (2 = 1 ∧ Format.rgb565 = .xrgb8888 ∨ 2 = 2 ∧ Format.rgb565 = .rgb565) ∧
    (∀ k : Fin 16, k ≠ 12 → k ≠ 14 → k ≠ 15 → (Desc.b = .b → k ≠ 13) → px .rgb565 (readReg (.win k) lineWindow) =
      px .rgb565 (readReg (.win k) { lineWindow with win := lineWindow.win.set 13 0x7777#32 })) ∧
    ∃ t t', exec (.block .b 2) lineWindow = .next t ∧
      exec (.block .b 2) { lineWindow with win := lineWindow.win.set 13 0x7777#32 } = .next t' :=
  ⟨by decide, by decide, _, _, rfl, rfl⟩

/-- The four clauses of the RENDER checks on a live slot of four-byte elements, as in V-RN9. -/
def checked (w sa ss ds : Nat) : State :=
  { live .xrgb8888 .a with
    width := BitVec.ofNat 16 w, height := 4#16, srcAddr := BitVec.ofNat 32 sa, srcStride := BitVec.ofNat 32 ss
    dstStride := BitVec.ofNat 32 ds }

/-- A register of a state as a number. -/
def num (r : Reg) (s : State) : Nat := (readReg r s).toNat

theorem witness_RenderReportsTheFirstFailingCheck :
    instAt (checked 0 0 16 32) 0 = some ⟨.xrgb8888, .a⟩ ∧ num .width (checked 0 0 16 32) = 0 ∧
      (num .width (checked 4 0x5002 16 32) ≠ 0 ∧ num .height (checked 4 0x5002 16 32) ≠ 0 ∧ ¬ 4 ∣ num .srcAddr (checked 4 0x5002 16 32)) ∧
      (4 ∣ num .srcAddr (checked 4 0x5000 12 32) ∧ 4 ∣ num .dstAddr (checked 4 0x5000 12 32) ∧
        4 ∣ num .srcStride (checked 4 0x5000 12 32) ∧ 4 ∣ num .dstStride (checked 4 0x5000 12 32) ∧
        num .srcStride (checked 4 0x5000 12 32) < num .width (checked 4 0x5000 12 32) * 4) ∧
      (4 ∣ num .dstStride (checked 4 0x5000 16 28) ∧
        num .dstStride (checked 4 0x5000 16 28) < 2 * num .width (checked 4 0x5000 16 28) * 4) := by decide
theorem witness_AcceptedRenderLatchesItsParameters :
    instAt smallRender 0 = some ⟨.rgb565, .a⟩ ∧ num .width smallRender ≠ 0 ∧ num .height smallRender ≠ 0 ∧
      2 ∣ num .srcAddr smallRender ∧ 2 ∣ num .dstAddr smallRender ∧ 2 ∣ num .srcStride smallRender ∧
      2 ∣ num .dstStride smallRender ∧ num .width smallRender * 2 ≤ num .srcStride smallRender ∧
      2 * num .width smallRender * 2 ≤ num .dstStride smallRender := by decide
theorem witness_FetchClampsOrReadsTheComputedAddress :
    smallJob.w ≠ 0#16 ∧ smallJob.h ≠ 0#16 ∧ smallJob.clamp = true ∧ ({ smallJob with clamp := false } : Job).clamp = false := by decide

/-- The small RENDER is coherent. -/
theorem smallJob_coherent : smallJob.Coherent :=
  ⟨by decide, by decide, by decide, by decide, by decide, by decide, by decide, by decide, by decide, by decide, by decide⟩

theorem smallJob_served : smallJob.Served rendering.platform := by unfold Job.Served; decide

theorem smallJob_accepted : JustAccepted smallJob rendering := by unfold JustAccepted; decide

theorem witness_EngineAccessesAreAligned : smallJob.Coherent ∧ 0x1000#32 ∈ smallJob.readsOf (0, 0) ++ smallJob.writesOf (0, 0) :=
  ⟨smallJob_coherent, by decide⟩
/-- S0 changed outside the read set. -/
theorem witness_BlockDependsOnItsReadSetOnly : ∀ a ∈ (smallJob.readsOf (0, 0)).flatMap (elemBytes (esz smallJob.fmt)),
    smallJob.s0.read a = (smallJob.s0.write 0x3000#32 0x55#8).read a := forall_mem_of (by decide)
theorem witness_EngineStepDoesOneBlock : rendering.engine = some smallJob ∧ smallJob.stuck = false ∧ smallJob.Served rendering.platform ∧
    (∃ c ∈ smallJob.coords, c ∉ smallJob.done) ∧ rendering.mem.wf = true ∧ smallJob.dsetBytes.Nodup :=
  ⟨rfl, rfl, smallJob_served, ⟨(0, 0), by decide, by decide⟩, by decide, by decide⟩

/-- The small RENDER with its one block done. -/
def finishedJob : Job := { smallJob with done := [(0, 0)] }

theorem witness_EngineStepCompletesAFinishedRender :
    ({ rendering with engine := some finishedJob } : State).engine = some finishedJob ∧ finishedJob.stuck = false ∧
      (∀ c ∈ finishedJob.coords, c ∈ finishedJob.done) ∧ finishedJob.anyValue rendering.platform = false := by decide
theorem witness_RunningRenderDependsOnNoRegister :
    Reg.srcAddr ≠ .cmd ∧ hostWrite (Reg.offset .srcAddr) .word 0x5000#32 rendering = .next { rendering with srcAddr := 0x5000#32 } :=
  ⟨by decide, rfl⟩

/-- The platform refuses the destination of the small RENDER. -/
def refusing : State := { rendering with platform := [⟨0x2000, 8, .refused⟩] }

/-- A RENDER of a two by one source of which the platform refuses the second block and serves the first. -/
def mixedJob : Job := { smallJob with w := 2#16, sstride := 4#32, dstride := 8#32 }

/-- The state of it. -/
def mixed : State := { rendering with engine := some mixedJob, platform := [⟨0x2004, 4, .refused⟩] }

/-- Each clause: every block left refused; a served and a refused block left; and a RENDER that is stuck. -/
theorem witness_RefusedAccessLeavesTheRenderStuck :
    (refusing.engine = some smallJob ∧ (∃ c ∈ smallJob.coords, c ∉ smallJob.done) ∧
      ∀ c ∈ smallJob.coords, c ∉ smallJob.done → smallJob.refusedAt refusing.platform c = true) ∧
    (Blocked mixed ∧ mixedJob.stuck = false ∧ mixed.script.head? ≠ some .reset ∧ mixedJob.refusedAt mixed.platform (0, 0) = false ∧
      step mixed = .next (engineStep none mixed)) ∧
    Blocked { refusing with engine := some { smallJob with stuck := true } } :=
  ⟨⟨rfl, ⟨(0, 0), by decide, by decide⟩, by decide⟩,
    ⟨⟨mixedJob, rfl, (1, 0), by decide, by decide, by decide⟩, rfl, by decide, by decide, rfl⟩,
    ⟨_, rfl, (0, 0), by decide, by decide, by decide⟩⟩

/-- The small RENDER with its two engine steps in the script. -/
def scheduled : State := { rendering with script := [.engine (some 0), .engine none] }

theorem witness_RenderCompletesInWidthTimesHeightPlusOneSteps : 1 ≤ smallJob.w.toNat * smallJob.h.toNat ∧ JustAccepted smallJob scheduled ∧ smallJob.Served scheduled.platform ∧
    [some 0, none].length = smallJob.w.toNat * smallJob.h.toNat + 1 ∧ scheduled.script = [some 0, none].map Action.engine ++ [] :=
  ⟨by decide, by unfold JustAccepted; decide, smallJob_served, by decide, rfl⟩
theorem witness_RenderWritesTheKernelOfEveryWindow : JustAccepted smallJob scheduled ∧ smallJob.Coherent ∧
    smallJob.Served scheduled.platform ∧ smallJob.anyValue scheduled.platform = false ∧
    [some 0, none].length = smallJob.w.toNat * smallJob.h.toNat + 1 ∧ scheduled.script = [some 0, none].map Action.engine ++ [] :=
  ⟨by unfold JustAccepted; decide, smallJob_coherent, smallJob_served, by decide, by decide, rfl⟩

/-- The small RENDER again, with other bytes of memory. -/
def otherMemory : Memory := smallRender.mem.write 0x3000#32 0x77#8
def otherJob : Job := { smallJob with s0 := otherMemory }
def otherRendering : State := { rendering with mem := otherMemory, engine := some otherJob }

theorem witness_RenderIsDeterministicInItsReadSet : JustAccepted smallJob rendering ∧ JustAccepted otherJob otherRendering ∧
    smallJob.Coherent ∧ otherJob.Coherent ∧ otherJob = { smallJob with s0 := otherJob.s0 } ∧ smallJob.Served rendering.platform ∧
    otherJob.Served otherRendering.platform ∧ smallJob.anyValue rendering.platform = false ∧
    otherJob.anyValue otherRendering.platform = false ∧ [some 0, none].length = smallJob.w.toNat * smallJob.h.toNat + 1 ∧
    ∀ a ∈ smallJob.rsetBytes, rendering.mem.read a = otherRendering.mem.read a :=
  ⟨smallJob_accepted, by unfold JustAccepted; decide, smallJob_coherent, { smallJob_coherent with s0_wf := by decide }, rfl,
    smallJob_served, by unfold Job.Served; decide, by decide, by decide, by decide, forall_mem_of (by decide)⟩

/-- A two by one raster of 0x1111 and 0x2222. -/
def edgeJob : Job :=
  { smallJob with w := 2#16, sstride := 4#32, dstride := 8#32, s0 := [(0x1000, 0x11#8), (0x1001, 0x11#8), (0x1002, 0x22#8), (0x1003, 0x22#8)] }

theorem witness_VerticalEdgeRasterStaysSharp : edgeJob.clamp = true ∧ edgeJob.w ≠ 0#16 ∧ edgeJob.h ≠ 0#16 ∧ 1 ≤ 1 ∧ 1 < edgeJob.w.toNat ∧
    ∀ cx < edgeJob.w.toNat, ∀ cy < edgeJob.h.toNat,
      edgeJob.s0.readElem (esz edgeJob.fmt) (elemAddr edgeJob.src edgeJob.sstride edgeJob.fmt cx cy) =
        if cx < 1 then 0x1111#32 else 0x2222#32 := by decide
theorem witness_ElementStoreIsLittleEndian : Memory.wf [(0x1000, 0x11#8), (0xFFFFFFFF, 0x22#8)] = true ∧ 0 < esz .rgb565 ∧
    3 < esz .xrgb8888 ∧ ∀ k < esz .rgb565, 0x1002#32 ≠ 0x1000#32 + BitVec.ofNat 32 k := by decide
/-- Both clauses: a write at the top of memory with no RENDER, and one into the destination of a RENDER. -/
theorem witness_HostWriteDuringRenderDisturbsIt :
    (State.reset.mem.wf = true ∧ State.reset.engine = none ∧ ∀ x ∈ elemBytes Size.word.bytes 0xFFFFFFFE#32,
      inRegion State.reset.platform .refused x = false ∧ inRegion State.reset.platform .sideEffects x = false) ∧
    (rendering.mem.wf = true ∧ rendering.engine = some smallJob ∧ ∀ x ∈ elemBytes Size.half.bytes 0x2000#32,
      inRegion rendering.platform .refused x = false ∧ inRegion rendering.platform .sideEffects x = false) :=
  ⟨⟨rfl, rfl, forall_mem_of (by decide)⟩, by decide, rfl, forall_mem_of (by decide)⟩
theorem witness_HostReadSeesMemoryOrOldOrFinalElements :
    (State.reset.busy = false ∧ ∀ x ∈ elemBytes Size.word.bytes 0xFFFFFFFC#32,
      inRegion State.reset.platform .refused x = false ∧ inRegion State.reset.platform .sideEffects x = false) ∧
    (rendering.engine = some smallJob ∧ smallJob.Coherent ∧ smallJob.anyValue rendering.platform = false ∧ (0, 0) ∈ smallJob.coords ∧
      0x2000#32 ∈ smallJob.writesOf (0, 0) ∧ ∀ x ∈ elemBytes (esz smallJob.fmt) 0x2000#32,
        inRegion rendering.platform .refused x = false ∧ inRegion rendering.platform .sideEffects x = false) :=
  ⟨⟨rfl, forall_mem_of (by decide)⟩, rfl, smallJob_coherent, by decide, by decide, by decide, forall_mem_of (by decide)⟩
theorem witness_WaitIdlePollsUntilTheEngineIsDone :
    (({ State.reset with script := [.waitIdle] } : State).script = .waitIdle :: [] ∧ State.reset.busy = false) ∧
      ({ rendering with script := [.waitIdle] } : State).script = .waitIdle :: [] ∧ rendering.busy = true := by decide
theorem witness_ResetStepRestoresTheRegistersAndSparesMemory :
    ({ rendering with script := [.reset] } : State).script = .reset :: [] ∧ 0x1000#32 ∉ smallJob.dsetBytes := by decide
theorem witness_IdleBlockHoldsItsState : interrupting.busy = false ∧ interrupting.script = [] := by decide

theorem smallRender_inv : Inv rendering ∧ RenderProgress rendering := by
  refine ⟨⟨by decide, fun j h => ?_⟩, fun j h _ a ha => ?_⟩
  · obtain rfl : smallJob = j := Option.some.inj h
    exact ⟨smallJob_coherent, rfl, rfl⟩
  · obtain rfl : smallJob = j := Option.some.inj h
    simp [Job.doneBytes, smallJob, latch]
    rfl

theorem witness_EveryStepKeepsTheInvariant : Inv rendering ∧ ∃ t, step rendering = .next t := ⟨smallRender_inv.1, _, rfl⟩
theorem witness_EveryStepKeepsTheRenderProgress : Inv rendering ∧ RenderProgress rendering ∧ ∃ t, step rendering = .next t :=
  ⟨smallRender_inv.1, smallRender_inv.2, _, rfl⟩

end Sys2Proof.Tests
end

section
/-! SUPPORT. The invariant of the machine under each thing a step can do (10_state R25, R41; 44_render R202), and O59. -/

namespace Sys2Proof.Machine

/-! ### Coherence of a RENDER -/

/-- Coherence speaks neither of the disturbance nor of the refusal of an access. -/
theorem Job.Coherent.withMarks {j : Job} (h : j.Coherent) (disturbed stuck : Bool) :
    ({ j with disturbed := disturbed, stuck := stuck } : Job).Coherent := { h with }

/-- What a RENDER that passes its checks latches is coherent (44_render R202, R203). -/
theorem latch_coherent {inst : Inst} {s : State} (hm : s.mem.wf = true) (hk : renderCheck inst.fmt s = none) :
    (latch inst s).Coherent := by
  obtain ⟨hw, hh, hsrc, hdst, hss, hds, hsl, hdl⟩ := renderCheck_none.1 hk
  exact ⟨hm, hw, hh, hsrc, hdst, hss, hds, hsl, hdl, .nil, by simp [latch]⟩

/-! ### The invariant under each kind of step -/

/-- The invariant depends on memory, the engine, DONE and ERR only. -/
theorem Inv.congr {s t : State} (h : Inv s) (hm : t.mem = s.mem) (he : t.engine = s.engine) (hd : t.statusDone = s.statusDone)
    (hr : t.statusErr = s.statusErr) : Inv t := by
  rwa [Inv, hm, he, hd, hr]

/-- With no RENDER in progress the invariant asks of memory alone. -/
theorem Inv.of_idle {t : State} (hm : t.mem.wf = true) (he : t.engine = none) : Inv t :=
  ⟨hm, fun j hj => by simp [he] at hj⟩

theorem Inv.quiet {s t : State} (h : Inv s) (hq : Quiet s t) : Inv t := by
  obtain ⟨hm, he, -, hbusy⟩ := hq
  refine ⟨hm ▸ h.1, fun j hj => ?_⟩
  rw [he] at hj
  obtain ⟨hc, hdone, herr⟩ := h.2 j hj
  obtain ⟨herr', hdone'⟩ := hbusy (by simp [State.busy, hj])
  exact ⟨hc, hdone' hdone, herr'.trans herr⟩

/-- The acceptance of a RENDER clears DONE and ERR and latches a coherent job (60_exceptions R233, 44_render R203). -/
theorem Inv.startEngine_accept {s : State} (h : Inv s) (c : Word) {inst : Inst} (hk : renderCheck inst.fmt s = none) :
    Inv (startEngine inst (accept c s)) := by
  refine ⟨h.1, fun j hj => ?_⟩
  obtain rfl : latch inst (accept c s) = j := Option.some.inj hj
  exact ⟨latch_coherent h.1 hk, rfl, rfl⟩

theorem Inv.engineStep {s : State} (h : Inv s) (choice : Option Nat) : Inv (engineStep choice s) := by
  rcases engineStep_cases choice s with e | ⟨j, hj, -, ⟨-, e⟩ | ⟨c, hc, ⟨-, e⟩ | ⟨-, e⟩⟩⟩ <;> rw [e]
  · exact h
  · exact .of_idle (wf_finishMem h.1 j) rfl
  · obtain ⟨hcoh, hstatus⟩ := h.2 j hj
    refine ⟨h.1, fun j' hj' => ?_⟩
    cases hj'
    exact ⟨hcoh.withMarks j.disturbed true, hstatus⟩
  · obtain ⟨hcoh, hstatus⟩ := h.2 j hj
    refine ⟨Job.wf_writeBlock h.1 j c, fun j' hj' => ?_⟩
    cases hj'
    exact ⟨hcoh.insert hc, hstatus⟩

theorem Inv.hostMemWrite {a : Addr} {size : Size} {v : Word} {s t : State} (h : Inv s)
    (hw : hostMemWrite a size v s = .next t) : Inv t := by
  rw [hostMemWrite_next hw]
  refine ⟨Memory.wf_writeElem h.1 _ _ _, fun j' hj' => ?_⟩
  obtain ⟨j, hj, rfl⟩ := Option.map_eq_some_iff.1 hj'
  obtain ⟨hcoh, hstatus⟩ := h.2 j hj
  exact ⟨hcoh.withMarks _ j.stuck, hstatus⟩

/-- Settles O59, by what a step can do (`step_next`): nothing to engine and memory, end a RENDER, begin one, an engine step, or a host
write of memory. -/
theorem everyStepKeepsTheInvariant : Obligations.EveryStepKeepsTheInvariant := by
  intro s t hs hstep
  obtain ⟨u, hm, he, -, hd, hr, h⟩ := step_next hstep
  have hu : Inv u := hs.congr hm he hd hr
  rcases h with hq | ⟨hnone, ⟨-, hmem⟩ | ⟨-, hmem⟩⟩ | ⟨c, inst, -, hk, rfl⟩ | ⟨choice, rfl⟩ | ⟨a, size, v, hw⟩
  · exact hu.quiet hq
  · exact .of_idle (hmem ▸ hu.1) hnone
  · exact .of_idle (hmem ▸ wf_resetMem hu.1) hnone
  · exact hu.startEngine_accept c hk
  · exact hu.engineStep choice
  · exact hu.hostMemWrite hw

end Sys2Proof.Machine
end

section
/-! SUPPORT. What a store to a register leaves, and the claims about the register port: O8 to O13 and O15 (10_state R20 to R44). -/

namespace Sys2Proof.Machine

/-! ### A store to a register -/

/-- A store to a register changes how no other register reads. -/
theorem sameRegsExcept_storeReg (r : Reg) (v : Word) (s : State) : SameRegsExcept [r] s (storeReg r v s) := by
  intro q hq
  cases r with
  | win k =>
    cases q with
    | win k' =>
      have hne : k.val ≠ k'.val := fun e => hq (by simp [Fin.ext e])
      exact Vector.getElem_set_ne k.isLt k'.isLt hne
    | _ => rfl
  | _ => cases q <;> first | rfl | exact absurd (List.mem_singleton.2 rfl) hq

/-- A store to a register reaches no slot, no RENDER in progress, no memory and nothing of the host's (10_state R44). -/
theorem storeReg_frame (r : Reg) (v : Word) (s : State) :
    (storeReg r v s).slots = s.slots ∧ (storeReg r v s).engine = s.engine ∧ SameMemory s (storeReg r v s) ∧
      SameSurroundings s (storeReg r v s) := by
  cases r <;> exact ⟨rfl, rfl, fun _ => rfl, rfl, rfl, rfl, rfl⟩

/-- The registers that R21 of 10_state lists as read-only. -/
def readOnlyRegs : List Reg := [.id, .caps, .result, .slots, .slotcfg, .outw, .outh, .p0, .p1, .p2, .p3]

/-- A write to a read-only register is ignored (10_state R43). -/
theorem hostWrite_readOnly {r : Reg} (h : r ∈ readOnlyRegs) (v : Word) (s : State) :
    hostWrite r.offset .word v s = .next s := by
  have hstore : ∀ r ∈ readOnlyRegs, r ≠ .cmd ∧ storeReg r v s = s := by simp [readOnlyRegs, storeReg]
  obtain ⟨hcmd, hs⟩ := hstore r h
  rw [hostWrite_reg v s hcmd, hs]

/-- Settles O11: the write is the register's store, whose frame holds of every register. -/
theorem writeToReadWriteRegisterReadsBackAndChangesNoOther :
    Obligations.WriteToReadWriteRegisterReadsBackAndChangesNoOther := by
  intro s v r hr
  obtain ⟨hslots, hengine, hmem, hsur⟩ := storeReg_frame r v s
  refine ⟨storeReg r v s, hostWrite_reg v s (by rintro rfl; simp at hr), ?_, sameRegsExcept_storeReg r v s, hslots, hengine, hmem,
    hsur⟩
  cases r with
  | ctrl => exact ctrlWord_writeCtrl v s
  | width => exact setWidth_dim v
  | height => exact setWidth_dim v
  | win k => exact Vector.getElem_set_self k.isLt
  | _ => first | rfl | simp at hr

/-! ### STATUS -/

/-- Settles O12: the fields of the STATUS word (`statusWord_fields`) before and after the store. -/
theorem statusWriteClearsOnlyDoneAndOvr : Obligations.StatusWriteClearsOnlyDoneAndOvr := by
  refine ⟨fun s => ?_, fun s v => ?_⟩
  · obtain ⟨hbusy, hdone, hovr, herr, hzero⟩ := statusWord_fields s
    exact ⟨hbusy, hdone, hovr, herr.trans (by cases s.statusErr <;> rfl), hzero⟩
  · obtain ⟨hbusy, hdone, hovr, herr, -⟩ := statusWord_fields s
    obtain ⟨hbusy', hdone', hovr', herr', -⟩ := statusWord_fields (writeStatus v s)
    refine ⟨writeStatus v s, hostWrite_reg (r := .status) v s (by decide), ?_, ?_, hbusy'.trans hbusy.symm, herr'.trans herr.symm,
      sameRegsExcept_storeReg .status v s, storeReg_frame .status v s⟩
    · exact hdone'.trans (congrArg (· && !v.getLsbD 1) hdone.symm)
    · exact hovr'.trans (congrArg (· && !v.getLsbD 2) hovr.symm)

/-! ### SLOTS and SLOTCFG -/

/-- The bits above a word's value are 0. -/
theorem getLsbD_of_toNat_lt {w : Word} {n i : Nat} (h : w.toNat < 2 ^ n) (hi : n ≤ i) : w.getLsbD i = false :=
  Nat.testBit_lt_two_pow (h.trans_le (Nat.pow_le_pow_right (by decide) hi))

/-- A field above a word's value is 0. -/
theorem extractLsb'_of_toNat_lt {w : Word} {n i : Nat} (h : w.toNat < 2 ^ n) (hi : n ≤ i) (len : Nat) :
    w.extractLsb' i len = 0#len := by
  refine BitVec.eq_of_getLsbD_eq fun k hk => ?_
  rw [BitVec.getLsbD_extractLsb', getLsbD_of_toNat_lt h (by omega)]
  simp

/-- The nibble of a live slot (10_state R29): its descriptor above its format. -/
theorem nibble_of_live {s : State} {i : Nat} {inst : Inst} (h : instAt s i = some inst) :
    0#1 ++ slotDesc s i ++ slotFmt s i =
      (match inst.desc with | .a => 0#4 | .b => 4#4) ||| (match inst.fmt with | .xrgb8888 => 1#4 | .rgb565 => 2#4) := by
  obtain ⟨fmt, desc⟩ := inst
  rw [slotDesc, slotFmt, h]
  cases desc <;> cases fmt <;> decide

/-- The nibble of a slot that is not live reads 0 (10_state R29). -/
theorem nibble_of_not_live {s : State} {i : Nat} (h : slotValid s i = false) : 0#1 ++ slotDesc s i ++ slotFmt s i = 0#4 := by
  have hnone : instAt s i = none := by simpa [slotValid] using h
  rw [slotDesc, slotFmt, hnone]
  decide

/-- Settles O13, by the bits of SLOTS and the nibbles of SLOTCFG. -/
theorem slotsAndSlotcfgShowTheInstances : Obligations.SlotsAndSlotcfgShowTheInstances := by
  refine ⟨fun s => ?_, fun s i hi => ?_, fun s i hi _ => ?_, fun s v => ⟨?_, ?_⟩, by decide, by decide⟩
  · obtain ⟨hbits, hlt⟩ := slotsWord_bits s
    exact ⟨hbits, fun i hi => getLsbD_of_toNat_lt (n := 4) hlt hi⟩
  · have hnib := (slotcfgWord_nibbles s).1 i hi
    exact ⟨fun inst h => hnib.trans (nibble_of_live h), fun h => hnib.trans (nibble_of_not_live h)⟩
  · exact extractLsb'_of_toNat_lt (slotcfgWord_nibbles s).2 (by omega) 4
  · exact hostWrite_readOnly (r := .slots) (by decide) v s
  · exact hostWrite_readOnly (r := .slotcfg) (by decide) v s

/-! ### Aligned accesses, reserved offsets and reserved fields -/

theorem definedAccess_iff {off : BitVec 8} {size : Size} : definedAccess off size = true ↔ size = .word ∧ off.toNat % 4 = 0 := by
  simp [definedAccess]

theorem hostRead_defined {off : BitVec 8} (h : off.toNat % 4 = 0) (s : State) :
    hostRead off .word s = .next { s with hostData := regValue off s } := by
  rw [hostRead, if_pos (definedAccess_iff.2 ⟨rfl, h⟩)]

theorem hostWrite_reserved {off : BitVec 8} (h : off.toNat % 4 = 0) (hr : regAt off.toNat = none) (v : Word) (s : State) :
    hostWrite off .word v s = .next s := by
  rw [hostWrite, if_pos (definedAccess_iff.2 ⟨rfl, h⟩), hr]

/-- Every request answers: it is dropped, or fails, or is executed (60_exceptions R233). -/
theorem request_answers (c : Word) (s : State) : ∃ t, request c s = .next t := by
  cases hb : s.busy with
  | true => exact ⟨_, request_busy c hb⟩
  | false =>
    cases hd : decode c with
    | error e => exact ⟨_, request_error hb hd⟩
    | ok i =>
      obtain ⟨t, ht, -⟩ := exec_next i (accept c s)
      exact ⟨t, (request_ok hb hd).trans ht⟩

/-- Every aligned offset up to 0x9C is that of a register (10_state R21). -/
theorem exists_offset_eq : ∀ off : BitVec 8, off.toNat % 4 = 0 → off.toNat ≤ 0x9C →
    ∃ r, regAt off.toNat = some r ∧ r.offset = off := by
  decide

/-- No register stands at 0xA0 or above (10_state R42). -/
theorem regAt_reserved : ∀ off : BitVec 8, 0xA0 ≤ off.toNat → regAt off.toNat = none := by
  decide

/-- An aligned 32-bit write answers, whatever the offset: nothing, a store, or a command request. -/
theorem hostWrite_answers {off : BitVec 8} (hal : off.toNat % 4 = 0) (v : Word) (s : State) :
    ∃ t, hostWrite off .word v s = .next t := by
  by_cases hres : 0xA0 ≤ off.toNat
  · exact ⟨s, hostWrite_reserved hal (regAt_reserved off hres) v s⟩
  · obtain ⟨r, -, rfl⟩ := exists_offset_eq off hal (by omega)
    by_cases hcmd : r = .cmd
    · subst hcmd
      obtain ⟨t, ht⟩ := request_answers v s
      exact ⟨t, (hostWrite_cmd v s).trans ht⟩
    · exact ⟨_, hostWrite_reg v s hcmd⟩

/-- Settles O8: both accesses test `definedAccess` first. -/
theorem onlyAlignedWordAccessesAreDefined : Obligations.OnlyAlignedWordAccessesAreDefined := by
  intro s off size v
  refine ⟨fun h => ?_, fun hsize hal => ?_⟩
  · have hu : ¬ definedAccess off size = true := fun hd => by
      obtain ⟨hsize, hal⟩ := definedAccess_iff.1 hd
      exact h.elim (· hsize) (· hal)
    exact ⟨if_neg hu, if_neg hu⟩
  · subst hsize
    exact ⟨hostRead_defined hal s, hostWrite_answers hal v s⟩

/-- Settles O9: the offsets by evaluation, and `regAt` is the inverse of `Reg.offset`. -/
theorem registerMapHasEachRegisterAtItsOffset : Obligations.RegisterMapHasEachRegisterAtItsOffset := by
  refine ⟨fun r => ?_, fun r s => ⟨?_, ?_⟩, fun off hal hle => ?_⟩
  · cases r with
    | win k => revert k; decide
    | _ => rfl
  · rw [regValue, regAt_offset]
  · exact (definedAccess_iff.1 (definedAccess_offset r)).2
  · obtain ⟨r, -, hr⟩ := exists_offset_eq off hal hle
    exact ⟨r, hr⟩

/-- The dimensions hold the low 16 bits of what is written (10_state R34, R35). -/
theorem setWidth_and_not_reserved (v : Word) : (v &&& ~~~0xFFFF0000#32).setWidth 16 = v.setWidth 16 := by
  ext i hi
  simp only [BitVec.getElem_setWidth, BitVec.getLsbD_and]
  interval_cases i <;> simp

/-- A dimension has no bit above its 16 (10_state R34, R35). -/
theorem setWidth_and_reserved (d : BitVec 16) : d.setWidth 32 &&& 0xFFFF0000#32 = 0#32 := by
  ext i hi
  simp only [BitVec.getElem_and, BitVec.getElem_setWidth]
  interval_cases i <;> simp

/-- CTRL has no bit but IE and CLAMP (10_state R24). -/
theorem ctrlWord_and_reserved (s : State) : ctrlWord s &&& 0xFFFFFFFC#32 = 0#32 := by
  unfold ctrlWord
  cases s.ctrlIe <;> cases s.ctrlClamp <;> decide

/-- The store of a register with reserved fields looks at no reserved bit of the value (10_state R42). -/
theorem storeReg_and_not_reserved (v : Word) (s : State) :
    ∀ x ∈ [(Reg.ctrl, 0xFFFFFFFC#32), (.status, 0xFFFFF0F8#32), (.width, 0xFFFF0000#32), (.height, 0xFFFF0000#32)],
      storeReg x.1 (v &&& ~~~x.2) s = storeReg x.1 v s := by
  simp only [List.forall_mem_cons, storeReg, setWidth_and_not_reserved]
  simp [writeCtrl, writeStatus]

/-- Settles O10: what is read-only is not stored, what is reserved has no register or no field. -/
theorem readOnlyAndReservedWritesAreIgnored : Obligations.ReadOnlyAndReservedWritesAreIgnored := by
  refine ⟨fun s v r hr => hostWrite_readOnly hr v s, fun s off v hres hal => ?_, fun s v x hx => ⟨?_, ?_⟩⟩
  · have hnone := regAt_reserved off hres
    exact ⟨by rw [hostRead_defined hal, regValue, hnone], hostWrite_reserved hal hnone v s⟩
  · revert x
    simp only [List.forall_mem_cons, readReg, ctrlWord_and_reserved, setWidth_and_reserved]
    simp [statusWord_fields s]
  · have hcmd : x.1 ≠ .cmd := by
      revert x; decide
    rw [hostWrite_reg _ s hcmd, hostWrite_reg _ s hcmd, storeReg_and_not_reserved v s x hx]

/-! ### The register block on the bus -/

/-- REG_BASE plus an offset is in the block, at that offset, whatever REG_BASE is (10_state R20). -/
theorem regBlock_offset (off : BitVec 8) :
    inRegBlock (Config.regBase + off.setWidth 32) = true ∧ blockOffset (Config.regBase + off.setWidth 32) = off := by
  have hsub : Config.regBase + off.setWidth 32 - Config.regBase = off.setWidth 32 := by
    rw [BitVec.add_comm, BitVec.add_sub_cancel]
  rw [inRegBlock, blockOffset, hsub]
  refine ⟨decide_eq_true ?_, ?_⟩
  · have := off.isLt
    rw [BitVec.toNat_setWidth]
    omega
  · simp

/-- Settles O15, by `regBlock_offset`. -/
theorem busAccessInTheBlockIsARegisterAccess : Obligations.BusAccessInTheBlockIsARegisterAccess := by
  intro s off size v
  obtain ⟨hin, hoff⟩ := regBlock_offset off
  rw [busRead, busWrite, if_pos hin, if_pos hin, hoff]
  exact ⟨rfl, rfl⟩

end Sys2Proof.Machine
end

section
/-! SUPPORT. The claims about CLASSIFY, BLOCK and the acceptance of RENDER: O28, O31, O39 (41_classifier R138, 42_kernels R160,
44_render R203). -/

namespace Sys2Proof.Machine

/-! ### CLASSIFY -/

/-- The fields of CLASSIFY's result (41_classifier R138): vote, six zeros, case. -/
theorem classifyResult_fields : ∀ (v : BitVec 4) (c : BitVec 2),
    ((v ++ 0#6 ++ c).setWidth 32 : Word).extractLsb' 8 4 = v ∧ ((v ++ 0#6 ++ c).setWidth 32 : Word).extractLsb' 0 2 = c ∧
      ((v ++ 0#6 ++ c).setWidth 32 : Word) &&& 0xFFFFF0FC#32 = 0#32 := by
  decide

/-- A vote fits its four bits in two's complement (41_classifier R135). -/
theorem toInt_vote (w : Window) : (BitVec.ofInt 4 (vote w)).toInt = vote w := by
  obtain ⟨hlo, hhi⟩ := vote_range w
  rw [BitVec.toInt_ofInt]
  exact Int.bmod_eq_of_le (by omega) (by omega)

theorem exec_classify {fmt : Nat} {f : Format} (hf : formatOf fmt = some f) (s : State) :
    exec (.classify fmt) s = .next (complete .eNone { s with
      result := (BitVec.ofInt 4 (vote (winWindow f s)) ++ 0#6 ++ (caseOf (winWindow f s)).code).setWidth 32 }) :=
  withFormat_some hf s _

/-- Settles O28: the fields of the result, with `comparePx_eq` for each of the four pairs. -/
theorem classifyReportsCaseAndVote : Obligations.ClassifyReportsCaseAndVote := by
  intro fmt f s hfmt w pair
  obtain ⟨hvote, hcase, hzero⟩ := classifyResult_fields (BitVec.ofInt 4 (vote w)) (caseOf w).code
  obtain ⟨hlo, hhi⟩ := vote_range w
  refine ⟨_, exec_classify (formatOf_eq_some.2 hfmt) s, .complete_result .eNone s _, ?_, ?_, hlo, hhi, ?_, hzero⟩
  · exact (congrArg BitVec.toInt hvote).trans (toInt_vote w)
  · simp only [vote, comparePx_eq, pair]
  · exact hcase.trans (by cases caseOf w <;> rfl)

/-! ### BLOCK -/

theorem exec_block (desc : Desc) {fmt : Nat} {f : Format} (hf : formatOf fmt = some f) (s : State) :
    exec (.block desc fmt) s = .next (complete .eNone (setBlock (kernel desc f (winWindow f s)) s)) :=
  withFormat_some hf s _

/-- P0 to P3 set from a block, then completion: no other register changes but STATUS (42_kernels R160). -/
theorem CommandEffect.complete_setBlock (err : Err) (s : State) (b : Block) :
    CommandEffect [.p0, .p1, .p2, .p3] err s (complete err (setBlock b s)) :=
  .of_complete (fun r h => by cases r <;> first | rfl | simp at h) (fun _ => rfl) rfl rfl (.refl s)

/-- The window of WIN0 to WIN15 holds elements (41_classifier R130). -/
theorem isElement_winWindow (f : Format) (s : State) :
    IsElement f (winWindow f s).a ∧ IsElement f (winWindow f s).b ∧ IsElement f (winWindow f s).c :=
  ⟨px_px f _, px_px f _, px_px f _⟩

/-- Settles O31: P0 to P3 hold the kernel's block, and a kernel on elements gives elements. -/
theorem blockPutsTheKernelInP0ToP3 : Obligations.BlockPutsTheKernelInP0ToP3 := by
  intro desc fmt f s hfmt
  obtain ⟨ha, hb, hc⟩ := isElement_winWindow f s
  exact ⟨_, exec_block desc (formatOf_eq_some.2 hfmt) s, .complete_setBlock .eNone s _, kernel_p00 desc f (winWindow f s), rfl, rfl,
    rfl, isElement_kernel desc f ha hb hc⟩

/-! ### The acceptance of RENDER -/

theorem exec_render_accepted {slot : Nat} {inst : Inst} {s : State} (hi : instAt s slot = some inst)
    (hk : renderCheck inst.fmt s = none) : exec (.render slot) s = .next (startEngine inst s) := by
  change withSlot slot s _ = _
  rw [withSlot_some hi, hk]

/-- Taking up a RENDER changes how no register but STATUS reads (44_render R203). -/
theorem sameRegsExcept_startEngine (inst : Inst) (s : State) : SameRegsExcept [.status] s (startEngine inst s) := by
  intro r h
  cases r <;> first | rfl | simp at h

/-- The fields of a live slot (10_state R40). -/
theorem slot_of_live {s : State} {i : Nat} {inst : Inst} (h : instAt s i = some inst) :
    slotFmt s i = formatCode inst.fmt ∧ slotDesc s i = descCode inst.desc := by
  simp [slotFmt, slotDesc, h]

/-- CTRL.CLAMP is bit 0 of CTRL (10_state R24). -/
theorem ctrlWord_clamp (s : State) : (ctrlWord s).getLsbD 0 = s.ctrlClamp := by
  unfold ctrlWord
  cases s.ctrlIe <;> cases s.ctrlClamp <;> decide

/-- Settles O39: the premises are `renderCheck`'s conditions, and the latches are the fields of `latch`. -/
theorem acceptedRenderLatchesItsParameters : Obligations.AcceptedRenderLatchesItsParameters := by
  intro slot inst s hi e reg hw hh hsrc hdst hss hds hsl hdl
  have hwidth : reg .width = s.width.toNat := BitVec.toNat_setWidth_of_le (by decide)
  have hheight : reg .height = s.height.toNat := BitVec.toNat_setWidth_of_le (by decide)
  have hk : renderCheck inst.fmt s = none := renderCheck_none.2
    ⟨fun h => hw (by simp [hwidth, h]), fun h => hh (by simp [hheight, h]), Nat.mod_eq_zero_of_dvd hsrc,
      Nat.mod_eq_zero_of_dvd hdst, Nat.mod_eq_zero_of_dvd hss, Nat.mod_eq_zero_of_dvd hds, hwidth ▸ hsl, hwidth ▸ hdl⟩
  obtain ⟨hfmt, hdesc⟩ := slot_of_live hi
  exact ⟨startEngine inst s, latch inst s, exec_render_accepted hi hk, rfl, rfl, rfl, rfl, rfl, hwidth.symm, hheight.symm, hfmt.symm,
    hdesc.symm, (ctrlWord_clamp s).symm, rfl, rfl, rfl, rfl, rfl, rfl, rfl, rfl, sameRegsExcept_startEngine inst s, rfl,
    fun _ => rfl, .refl s⟩

end Sys2Proof.Machine
end

section
/-! SUPPORT. The claims about memory, the engine and the host beside it: O60, O41, O46, O51, O52, O53 (20_memory R62, R68, R72 to R75,
44_render R204, R212, R215). -/

namespace Sys2Proof.Machine

/-! ### What no register shows -/

/-- Memory, the data last returned, the draw counter and whatever of a RENDER is not BUSY stand in no register (10_state R21). -/
theorem sameRegsExcept_nil_of_isSome_eq {s : State} {e : Option Job} (he : e.isSome = s.engine.isSome) (m : Memory) (d : Word) (n : Nat) :
    SameRegsExcept [] s { s with engine := e, mem := m, hostData := d, draws := n } := by
  intro r _
  cases r with
  | status => simp only [readReg, statusWord, State.busy, he]
  | _ => rfl

theorem busy_of_engine {s : State} {j : Job} (h : s.engine = some j) : s.busy = true := by
  simp [State.busy, h]

theorem engine_of_not_busy {s : State} (h : s.busy = false) : s.engine = none := by
  simpa [State.busy] using h

/-! ### The progress of a RENDER -/

/-- Progress is a matter of the engine, memory and the platform's map alone. -/
theorem RenderProgress.congr {s t : State} (hp : RenderProgress s) (hm : t.mem = s.mem) (he : t.engine = s.engine)
    (hpl : t.platform = s.platform) : RenderProgress t := by
  rwa [RenderProgress, hm, he, hpl]

theorem RenderProgress.of_idle {s : State} (h : s.engine = none) : RenderProgress s := by
  intro j hj
  simp [h] at hj

/-- At its acceptance a RENDER has no block done, and memory is S0 (44_render R203). -/
theorem renderProgress_startEngine (inst : Inst) (s : State) : RenderProgress (startEngine inst s) := by
  intro j hj _ a _
  obtain rfl : latch inst s = j := Option.some.inj hj
  rfl

/-- The done bytes after one more block. -/
theorem Job.mem_doneBytes_insertBlock {j : Job} {c : Nat × Nat} {a : Addr} :
    a ∈ ({ j with done := insertBlock c j.done } : Job).doneBytes ↔ a ∈ j.blockBytes c ∨ a ∈ j.doneBytes := by
  rw [Job.mem_doneBytes, Job.mem_doneBytes]
  change (∃ d ∈ insertBlock c j.done, a ∈ j.blockBytes d) ↔ _
  simp only [mem_insertBlock, or_and_right, exists_or, exists_eq_left]

/-- A block written over any memory brings its own bytes to their final value and leaves the others (44_render R204, R215). -/
theorem RenderProgress.after_writeBlock {s t : State} {j : Job} {c : Nat × Nat} (hp : RenderProgress s) (hm : s.mem.wf = true)
    (hs0 : j.s0.wf = true) (hj : s.engine = some j) (hc : c ∈ j.coords) (htm : t.mem = j.writeBlock s.mem c)
    (hte : t.engine = some { j with done := insertBlock c j.done }) (htp : t.platform = s.platform) : RenderProgress t := by
  intro j' hj' hv a ha
  obtain rfl : { j with done := insertBlock c j.done } = j' := Option.some.inj (hte.symm.trans hj')
  rw [htp] at hv
  have hdef : j.anyValue s.platform = false := hv
  have hdset : a ∈ j.dsetBytes := ha
  change _ = if _ then j.finalMem.read a else j.s0.read a
  rw [htm]
  by_cases hb : a ∈ j.blockBytes c
  · rw [if_pos (Job.mem_doneBytes_insertBlock.2 (.inl hb))]
    exact (Job.read_finalMem_of_mem hs0 (Job.nodup_of_anyValue_false hdef) hc hb hm).symm
  · rw [j.read_writeBlock_of_notMem _ hb, hp j hj hdef a hdset]
    simp only [Job.mem_doneBytes_insertBlock, hb, false_or]

/-- An engine step ends the RENDER, leaves memory as it is, or writes one block (44_render R215, 20_memory R72). -/
theorem RenderProgress.after_engineStep {s : State} (hp : RenderProgress s) (hm : s.mem.wf = true)
    (hs0 : ∀ j, s.engine = some j → j.s0.wf = true) (choice : Option Nat) : RenderProgress (engineStep choice s) := by
  rcases engineStep_cases choice s with e | ⟨j, hj, -, ⟨-, e⟩ | ⟨c, hc, ⟨-, e⟩ | ⟨-, e⟩⟩⟩
  · rwa [e]
  · exact .of_idle (by rw [e]; rfl)
  · rw [e]
    intro j' hj'
    obtain rfl : { j with stuck := true } = j' := Option.some.inj hj'
    exact hp j hj
  · rw [e]
    exact hp.after_writeBlock hm (hs0 j hj) hj (Job.mem_remaining.1 hc).1 rfl rfl rfl

/-- What a host write records against a RENDER (20_memory R74, R75, 44_render R212 condition 3). -/
theorem Job.noteWrite_disturbed {j : Job} {addrs : List Addr} :
    (j.noteWrite addrs).disturbed = true ↔ j.disturbed = true ∨ ∃ x ∈ addrs, x ∈ j.rsetBytes ∨ x ∈ j.dsetBytes := by
  simp [Job.noteWrite]

/-- A RENDER whose result is still defined after a host write had a defined result before it, and no byte written lies in its
destination. -/
theorem Job.anyValue_of_noteWrite {j : Job} {addrs : List Addr} {platform : List Region}
    (h : (j.noteWrite addrs).anyValue platform = false) :
    j.anyValue platform = false ∧ ∀ x ∈ addrs, x ∉ j.dsetBytes := by
  simp only [Job.anyValue, Bool.or_eq_false_iff] at h ⊢
  obtain ⟨⟨hd, ho⟩, hs⟩ := h
  rw [← Bool.not_eq_true, Job.noteWrite_disturbed, not_or, Bool.not_eq_true] at hd
  exact ⟨⟨⟨hd.1, ho⟩, hs⟩, fun x hx hin => hd.2 ⟨x, hx, .inr hin⟩⟩

/-- A host write spares the destination of every RENDER it leaves undisturbed (44_render R212 condition 3). -/
theorem RenderProgress.after_hostMemWrite {s t : State} {a : Addr} {size : Size} {v : Word} (hp : RenderProgress s)
    (h : hostMemWrite a size v s = .next t) : RenderProgress t := by
  obtain rfl := hostMemWrite_next h
  intro j' hj' hv x hx
  obtain ⟨j, hj, rfl⟩ := Option.map_eq_some_iff.1 hj'
  obtain ⟨hdef, hout⟩ := Job.anyValue_of_noteWrite hv
  have hxout : x ∉ elemBytes size.bytes a := fun hin => hout x hin hx
  exact (Memory.read_writeElem_of_notMem s.mem v hxout).trans (hp j hj hdef x hx)

/-- Settles O60, by what a step can do (`step_next`): only an engine step and a host write reach the bytes of a RENDER in progress. -/
theorem everyStepKeepsTheRenderProgress : Obligations.EveryStepKeepsTheRenderProgress := by
  intro s t hinv hp hstep
  obtain ⟨hm, hjob⟩ := hinv
  obtain ⟨u, hum, hue, hup, -, -, h⟩ := step_next hstep
  have hpu : RenderProgress u := hp.congr hum hue hup
  rcases h with ⟨htm, hte, htp, -⟩ | ⟨hidle, -⟩ | ⟨c, inst, -, -, rfl⟩ | ⟨choice, rfl⟩ | ⟨a, size, v, hw⟩
  · exact hpu.congr htm hte htp
  · exact .of_idle hidle
  · exact renderProgress_startEngine inst _
  · exact hpu.after_engineStep (hum ▸ hm) (fun j hj => (hjob j (hue ▸ hj)).1.s0_wf) choice
  · exact hpu.after_hostMemWrite hw

/-! ### Alignment -/

theorem Job.Coherent.fetchAddr_aligned {j : Job} (h : j.Coherent) (x y : Int) : (j.fetchAddr x y).toNat % esz j.fmt = 0 := by
  unfold Job.fetchAddr
  split <;> exact elemAddr_aligned h.src_aligned h.sstride_aligned _ _

theorem Job.Coherent.destAddr_aligned {j : Job} (h : j.Coherent) (x y : Nat) : (j.destAddr x y).toNat % esz j.fmt = 0 :=
  elemAddr_aligned h.dst_aligned h.dstride_aligned _ _

/-- Settles O41: every address read is a `fetchAddr`, every address written a `destAddr`. -/
theorem engineAccessesAreAligned : Obligations.EngineAccessesAreAligned := by
  intro j hj c a ha
  rcases List.mem_append.1 ha with hr | hw
  · obtain ⟨o, -, rfl⟩ := List.mem_map.1 hr
    exact hj.fetchAddr_aligned _ _
  · simp only [Job.writesOf, List.mem_cons, List.not_mem_nil, or_false] at hw
    rcases hw with rfl | rfl | rfl | rfl <;> exact hj.destAddr_aligned _ _

/-! ### A refused access -/

/-- An engine step with a block left meets one that remains: it does it, or is stuck on it (44_render R215, 20_memory R72). -/
theorem engineStep_remaining {s : State} {j : Job} (hj : s.engine = some j) (hs : j.stuck = false)
    (hr : ∃ c ∈ j.coords, c ∉ j.done) (choice : Option Nat) : ∃ c ∈ j.coords, c ∉ j.done ∧
      (j.refusedAt s.platform c = false → engineStep choice s =
        { s with mem := j.writeBlock s.mem c, engine := some { j with done := insertBlock c j.done }, draws := s.draws + 1 }) ∧
      (j.refusedAt s.platform c = true → engineStep choice s =
        { s with engine := some { j with stuck := true }, draws := s.draws + 1 }) := by
  obtain ⟨d, hd, hdn⟩ := hr
  obtain ⟨c, hc, e⟩ := engineStep_block hj hs (List.ne_nil_of_mem (Job.mem_remaining.2 ⟨hd, hdn⟩)) choice
  obtain ⟨hcc, hcn⟩ := Job.mem_remaining.1 hc
  refine ⟨c, hcc, hcn, fun hf => ?_, fun hf => ?_⟩ <;> rw [e, engineBlock, hf] <;> rfl

/-- Being blocked is a matter of the engine and the platform's map alone. -/
theorem Blocked.congr {s t : State} (h : Blocked s) (he : t.engine = s.engine) (hpl : t.platform = s.platform) : Blocked t := by
  rwa [Blocked, he, hpl]

theorem Blocked.busy {s : State} (h : Blocked s) : s.busy = true := by
  obtain ⟨j, hj, -⟩ := h
  exact busy_of_engine hj

/-- No engine step finishes a refused block, so none completes the RENDER (20_memory R72). -/
theorem Blocked.after_engineStep {s : State} (h : Blocked s) (choice : Option Nat) : Blocked (engineStep choice s) := by
  obtain ⟨j, hj, d, hd, hdn, hdr⟩ := h
  cases hs : j.stuck with
  | true =>
    rw [engineStep_stuck hj hs]
    exact ⟨j, hj, d, hd, hdn, hdr⟩
  | false =>
    obtain ⟨c, -, -, hserved, hrefused⟩ := engineStep_remaining hj hs ⟨d, hd, hdn⟩ choice
    cases hf : j.refusedAt s.platform c with
    | true =>
      rw [hrefused hf]
      exact ⟨_, rfl, d, hd, hdn, hdr⟩
    | false =>
      have hne : d ≠ c := by
        rintro rfl
        simp [hdr] at hf
      rw [hserved hf]
      exact ⟨_, rfl, d, hd, fun hin => (mem_insertBlock.1 hin).elim hne hdn, hdr⟩

theorem Blocked.after_hostMemWrite {s t : State} {a : Addr} {size : Size} {v : Word} (h : Blocked s)
    (hw : hostMemWrite a size v s = .next t) : Blocked t := by
  obtain rfl := hostMemWrite_next hw
  obtain ⟨j, hj, d, hd, hdn, hdr⟩ := h
  exact ⟨_, congrArg (Option.map _) hj, d, hd, hdn, hdr⟩

/-- A blocked RENDER stays blocked: of what a step can do (`step_next`), only a reset would end it. -/
theorem Blocked.after_step {s t : State} (h : Blocked s) (hr : s.script.head? ≠ some .reset) (hstep : step s = .next t) : Blocked t := by
  obtain ⟨u, -, hue, hup, -, -, hcases⟩ := step_next hstep
  have hu : Blocked u := h.congr hue hup
  rcases hcases with ⟨-, hte, htp, -⟩ | ⟨-, ⟨hb, -⟩ | ⟨hreset, -⟩⟩ | ⟨c, inst, hb, -, -⟩ | ⟨choice, rfl⟩ | ⟨a, size, v, hw⟩
  · exact hu.congr hte htp
  · exact absurd hu.busy (by simp [hb])
  · exact absurd hreset hr
  · exact absurd hu.busy (by simp [hb])
  · exact hu.after_engineStep choice
  · exact hu.after_hostMemWrite hw

theorem Blocked.after_engineSteps {s : State} (h : Blocked s) (choices : List (Option Nat)) :
    Blocked (choices.foldl (fun u c => engineStep c u) s) := by
  induction choices generalizing s with
  | nil => exact h
  | cons c cs ih => exact ih (h.after_engineStep c)

/-- With every block left refused an engine step is stuck, and memory stays (20_memory R72; log 8). -/
theorem engineStep_all_refused {s : State} {j : Job} (hj : s.engine = some j) (hr : ∃ c ∈ j.coords, c ∉ j.done)
    (hall : ∀ c ∈ j.coords, c ∉ j.done → j.refusedAt s.platform c = true) (choice : Option Nat) :
    ∃ j', (engineStep choice s).engine = some j' ∧ j'.stuck = true ∧ (engineStep choice s).mem = s.mem := by
  cases hs : j.stuck with
  | true =>
    rw [engineStep_stuck hj hs]
    exact ⟨j, hj, hs, rfl⟩
  | false =>
    obtain ⟨c, hc, hcn, -, hrefused⟩ := engineStep_remaining hj hs hr choice
    rw [hrefused (hall c hc hcn)]
    exact ⟨_, rfl, rfl, rfl⟩

/-- Settles O46: `Blocked` is kept by every step but a reset, and an engine step on it does or meets one of the blocks left. -/
theorem refusedAccessLeavesTheRenderStuck : Obligations.RefusedAccessLeavesTheRenderStuck := by
  refine ⟨fun s t h hr hstep => ⟨h.after_step hr hstep, (h.after_step hr hstep).busy⟩, fun s choices h => (h.after_engineSteps choices).busy,
    fun s j choice hj h => ⟨fun hs => engineStep_stuck hj hs choice, fun hs => ?_⟩, fun s j choice choice' hj hr hall => ?_⟩
  · obtain ⟨j', hj', d, hd, hdn, -⟩ := h
    obtain rfl : j = j' := Option.some.inj (hj.symm.trans hj')
    obtain ⟨c, hc, hcn, hserved, hrefused⟩ := engineStep_remaining hj hs ⟨d, hd, hdn⟩ choice
    have hsome : ∀ j'' : Job, (some j'').isSome = s.engine.isSome := fun _ => by rw [hj]; rfl
    refine ⟨c, hc, hcn, ?_, fun hf => by rw [hserved hf]; exact ⟨rfl, rfl⟩, fun hf => by rw [hrefused hf]; exact ⟨rfl, rfl⟩⟩
    cases hf : j.refusedAt s.platform c with
    | true => rw [hrefused hf]; exact sameRegsExcept_nil_of_isSome_eq (hsome _) _ _ _
    | false => rw [hserved hf]; exact sameRegsExcept_nil_of_isSome_eq (hsome _) _ _ _
  · obtain ⟨j', hj', hs', hm⟩ := engineStep_all_refused hj hr hall choice
    exact ⟨busy_of_engine hj', hm, engineStep_stuck hj' hs' choice'⟩

/-! ### Element stores -/

/-- The value of byte k of a word. -/
theorem toNat_extractByte (v : Word) (k : Nat) : (v.extractLsb' (8 * k) 8).toNat = v.toNat / 2 ^ (8 * k) % 256 := by
  rw [BitVec.extractLsb'_toNat, Nat.shiftRight_eq_div_pow]

/-- Byte k of an element store of at most four bytes (20_memory R62). -/
theorem Memory.toNat_read_writeElem {m : Memory} (h : m.wf = true) {n k : Nat} (hn : n ≤ 4) (hk : k < n) (a : Addr) (v : Word) :
    ((m.writeElem n a v).read (a + BitVec.ofNat 32 k)).toNat = v.toNat / 2 ^ (8 * k) % 256 := by
  rw [Memory.read_writeElem_byte h (hn.trans (by decide)) hk, toNat_extractByte]

/-- Settles O51, by the laws of an element store. -/
theorem elementStoreIsLittleEndian : Obligations.ElementStoreIsLittleEndian := by
  intro m f a v hm
  refine ⟨Memory.readElem_writeElem hm f a v, fun k hk => Memory.toNat_read_writeElem hm (esz_le f) hk a v, fun x hx => ?_⟩
  refine Memory.read_writeElem_of_notMem m v fun hin => ?_
  obtain ⟨k, hk, rfl⟩ := mem_elemBytes.1 hin
  exact hx k hk rfl

/-! ### The host beside the engine -/

theorem Size.bytes_le (size : Size) : size.bytes ≤ 4 := by cases size <;> decide

@[simp] theorem bytes_elemSize (f : Format) : (elemSize f).bytes = esz f := by cases f <;> rfl

/-- Settles O52: the write is `writeElem` on memory and `noteWrite` on the RENDER in progress. -/
theorem hostWriteDuringRenderDisturbsIt : Obligations.HostWriteDuringRenderDisturbsIt := by
  intro s a size v hm hord
  refine ⟨_, hostMemWrite_ok v hord, fun k hk => Memory.toNat_read_writeElem hm size.bytes_le hk a v,
    fun x hx => Memory.read_writeElem_of_notMem s.mem v hx, sameRegsExcept_nil_of_isSome_eq Option.isSome_map _ _ _, rfl, .refl s,
    fun hidle => by rw [hidle]; rfl, fun j hj => ?_⟩
  exact ⟨j.noteWrite (elemBytes size.bytes a), congrArg (Option.map _) hj, rfl, Job.noteWrite_disturbed⟩

/-- With no RENDER in progress a host read sees memory (20_memory R73). -/
theorem hostByte_idle {s : State} (h : s.engine = none) : hostByte s = s.mem.read := by
  funext a
  rw [hostByte, h]

/-- A host read of a destination element of an undisturbed RENDER sees it whole: the old one or the final one (20_memory R69, R75). -/
theorem hostElem_destination {s : State} {j : Job} (he : s.engine = some j) (hj : j.Coherent) (hv : j.anyValue s.platform = false)
    {c : Nat × Nat} (hc : c ∈ j.coords) {a : Addr} (ha : a ∈ j.writesOf c) :
    BitVec.ofNat 32 (assemble Config.endian ((elemBytes (esz j.fmt) a).map (hostByte s))) =
      if Config.freeOld s.draws a.toNat then j.s0.readElem (esz j.fmt) a else j.finalMem.readElem (esz j.fmt) a := by
  rw [List.map_congr_left fun x hx => hostByte_destination he hj hv hc ha hx]
  split <;> rfl

/-- Settles O53: the bytes a host read sees are memory's while idle, and those of the old or the final element while BUSY = 1. -/
theorem hostReadSeesMemoryOrOldOrFinalElements : Obligations.HostReadSeesMemoryOrOldOrFinalElements := by
  refine ⟨fun s a size hb hord => ?_, fun s j c a he hj hv hc ha hord => ?_⟩
  · refine ⟨_, hostMemRead_ok hord, ?_, sameRegsExcept_nil_of_isSome_eq rfl _ _ _, rfl, rfl, fun _ => rfl⟩
    rw [hostByte_idle (engine_of_not_busy hb)]
    rfl
  · rw [← bytes_elemSize] at hord
    refine ⟨_, hostMemRead_ok hord, ?_, sameRegsExcept_nil_of_isSome_eq rfl _ _ _, rfl, rfl, fun _ => rfl⟩
    dsimp only
    rw [bytes_elemSize, hostElem_destination he hj hv hc ha]
    exact ite_eq_or_eq _ _ _

end Sys2Proof.Machine
end

section
/-! SUPPORT. The opcode table (30_encoding R97) as rows, what the decoder and the encoder do with each row, and the claims about the
command word: O1 to O4 (30_encoding R91 to R101). -/

namespace Sys2Proof

/-! ### The fields of a command word -/

/-- Two fields put together, as a sum. -/
theorem toNat_append_eq_add {m n : Nat} (x : BitVec m) (y : BitVec n) : (x ++ y).toNat = x.toNat * 2 ^ n + y.toNat := by
  rw [BitVec.toNat_append, ← Nat.shiftLeft_add_eq_or_of_lt y.isLt, Nat.shiftLeft_eq]

/-- The number of a command word: each field at its lowest bit (30_encoding R91). -/
theorem toNat_commandWord {fmt slot op : Nat} (hfmt : fmtFits fmt) (hslot : slotFits slot) (hop : op < 256) (desc : Desc) :
    (commandWord fmt desc slot op).toNat = fmt * 2 ^ 16 + (descBit desc).toNat * 2 ^ 12 + slot * 2 ^ 8 + op := by
  simp only [commandWord, toNat_append_eq_add, BitVec.toNat_ofNat]
  omega

/-- The fields read back from a command word (30_encoding R91). -/
theorem fields_commandWord {fmt slot op : Nat} (hfmt : fmtFits fmt) (hslot : slotFits slot) (hop : op < 256) (desc : Desc) :
    rsv1Field (commandWord fmt desc slot op) = 0#14 ∧ rsv0Field (commandWord fmt desc slot op) = 0#3 ∧
      (fmtField (commandWord fmt desc slot op)).toNat = fmt ∧ descField (commandWord fmt desc slot op) = descBit desc ∧
      (slotField (commandWord fmt desc slot op)).toNat = slot ∧ (opField (commandWord fmt desc slot op)).toNat = op := by
  have hdesc := (descBit desc).isLt
  simp only [← BitVec.toNat_inj, rsv1Field, rsv0Field, fmtField, descField, slotField, opField, BitVec.extractLsb'_toNat,
    toNat_commandWord hfmt hslot hop, Nat.shiftRight_eq_div_pow, BitVec.toNat_ofNat]
  omega

@[simp] theorem descOfBit_descBit (desc : Desc) : descOfBit (descBit desc) = desc := by cases desc <;> rfl

theorem descBit_descOfBit : ∀ b : BitVec 1, descBit (descOfBit b) = b := by decide

/-- A word without a reserved bit is the command word of its fields. -/
theorem eq_commandWord_of_legal {c : Word} (h1 : rsv1Field c = 0#14) (h0 : rsv0Field c = 0#3) :
    c = commandWord (fmtField c).toNat (descOfBit (descField c)) (slotField c).toNat (opField c).toNat := by
  simp only [commandWord, BitVec.ofNat_toNat, BitVec.setWidth_eq, descBit_descOfBit]
  rw [← h1, ← h0]
  exact word_eq_fields c

/-! ### The opcode table -/

/-- The rows of the opcode table at given field values: the opcode, and the command with the fields it uses (30_encoding R97). -/
def opcodeTable (desc : Desc) (fmt slot : Nat) : List (Nat × Instr) :=
  [(0x00, .nop), (0x01, .qinfmt), (0x02, .qoutfmt), (0x03, .create desc fmt), (0x04, .destroy slot), (0x05, .outsize slot),
    (0x06, .firstpass slot), (0x07, .render slot), (0x10, .blend2 fmt), (0x11, .blend4 fmt), (0x12, .cmp fmt),
    (0x13, .classify fmt), (0x14, .block desc fmt)]

/-- The opcodes of the rows are the assigned ones. -/
theorem map_fst_opcodeTable (desc : Desc) (fmt slot : Nat) : (opcodeTable desc fmt slot).map Prod.fst = Machine.assignedOps := rfl

theorem assigned_of_mem_opcodeTable {desc : Desc} {fmt slot : Nat} {row : Nat × Instr} (h : row ∈ opcodeTable desc fmt slot) :
    row.1 ∈ Machine.assignedOps := by
  rw [← map_fst_opcodeTable desc fmt slot]
  exact List.mem_map_of_mem h

theorem exists_row_of_assigned {op : Nat} (h : op ∈ Machine.assignedOps) (desc : Desc) (fmt slot : Nat) :
    ∃ i, (op, i) ∈ opcodeTable desc fmt slot := by
  obtain ⟨⟨_, i⟩, hrow, rfl⟩ := List.mem_map.1 (map_fst_opcodeTable desc fmt slot ▸ h)
  exact ⟨i, hrow⟩

theorem lt_of_assigned : ∀ op ∈ Machine.assignedOps, op < 256 := by decide

/-- The row of a well-formed command, its unused fields taken as 0 (30_encoding R96, R101). -/
theorem exists_row_of_wf {i : Instr} (h : i.wf = true) : ∃ desc fmt slot op, fmtFits fmt ∧ slotFits slot ∧
    (op, i) ∈ opcodeTable desc fmt slot ∧ encode i = commandWord fmt desc slot op := by
  cases i with
  | nop => exact ⟨.a, 0, 0, 0x00, by decide, by decide, by decide, rfl⟩
  | qinfmt => exact ⟨.a, 0, 0, 0x01, by decide, by decide, by decide, rfl⟩
  | qoutfmt => exact ⟨.a, 0, 0, 0x02, by decide, by decide, by decide, rfl⟩
  | create desc fmt => exact ⟨desc, fmt, 0, 0x03, of_decide_eq_true h, by decide, by simp [opcodeTable], rfl⟩
  | destroy slot => exact ⟨.a, 0, slot, 0x04, by decide, of_decide_eq_true h, by simp [opcodeTable], rfl⟩
  | outsize slot => exact ⟨.a, 0, slot, 0x05, by decide, of_decide_eq_true h, by simp [opcodeTable], rfl⟩
  | firstpass slot => exact ⟨.a, 0, slot, 0x06, by decide, of_decide_eq_true h, by simp [opcodeTable], rfl⟩
  | render slot => exact ⟨.a, 0, slot, 0x07, by decide, of_decide_eq_true h, by simp [opcodeTable], rfl⟩
  | blend2 fmt => exact ⟨.a, fmt, 0, 0x10, of_decide_eq_true h, by decide, by simp [opcodeTable], rfl⟩
  | blend4 fmt => exact ⟨.a, fmt, 0, 0x11, of_decide_eq_true h, by decide, by simp [opcodeTable], rfl⟩
  | cmp fmt => exact ⟨.a, fmt, 0, 0x12, of_decide_eq_true h, by decide, by simp [opcodeTable], rfl⟩
  | classify fmt => exact ⟨.a, fmt, 0, 0x13, of_decide_eq_true h, by decide, by simp [opcodeTable], rfl⟩
  | block desc fmt => exact ⟨desc, fmt, 0, 0x14, of_decide_eq_true h, by decide, by simp [opcodeTable], rfl⟩

/-- The decoder reads each row of the table from the row's opcode, whatever the fields hold. -/
theorem decode_row {desc : Desc} {fmt slot : Nat} (hfmt : fmtFits fmt) (hslot : slotFits slot) {row : Nat × Instr}
    (hrow : row ∈ opcodeTable desc fmt slot) : decode (commandWord fmt desc slot row.1) = .ok row.2 := by
  obtain ⟨hrsv1, hrsv0, hf, hd, hs, hop⟩ := fields_commandWord hfmt hslot (lt_of_assigned _ (assigned_of_mem_opcodeTable hrow)) desc
  rw [decode, if_neg (by simp [hrsv1, hrsv0]), hop, hf, hd, hs, descOfBit_descBit]
  clear hrsv1 hrsv0 hf hd hs hop
  fin_cases hrow <;> rfl

/-- Settles O1: a well-formed command is a row of the table, and the decoder reads every row. -/
theorem decodeOfEncodeIsTheCommand : Obligations.DecodeOfEncodeIsTheCommand := by
  intro i h
  obtain ⟨desc, fmt, slot, op, hfmt, hslot, hrow, hword⟩ := exists_row_of_wf h
  rw [hword, decode_row hfmt hslot hrow]

/-! ### What a word decodes to -/

/-- A mask is taken field by field, and the reserved fields of a command word are 0. -/
theorem commandWord_and (fmt : Nat) (desc : Desc) (slot op : Nat) (f : BitVec 2) (d : BitVec 1) (s : BitVec 4) :
    commandWord fmt desc slot op &&& (0#14 ++ f ++ 0#3 ++ d ++ s ++ BitVec.allOnes 8) =
      0#14 ++ (BitVec.ofNat 2 fmt &&& f) ++ 0#3 ++ (descBit desc &&& d) ++ (BitVec.ofNat 4 slot &&& s) ++ BitVec.ofNat 8 op := by
  have field_by_field : ∀ (r : BitVec 14) (F : BitVec 2) (r' : BitVec 3) (D : BitVec 1) (S : BitVec 4) (O : BitVec 8),
      (r ++ F ++ r' ++ D ++ S ++ O) &&& (0#14 ++ f ++ 0#3 ++ d ++ s ++ BitVec.allOnes 8) =
        0#14 ++ (F &&& f) ++ 0#3 ++ (D &&& d) ++ (S &&& s) ++ O := by
    simp only [BitVec.and_append, BitVec.and_allOnes, BitVec.and_zero, implies_true]
  exact field_by_field ..

section
/-! The fields that each of the four masks of `usedBits` keeps. -/

variable (fmt : Nat) (desc : Desc) (slot op : Nat)

theorem commandWord_and_op : commandWord fmt desc slot op &&& 0x000000FF#32 = commandWord 0 .a 0 op := by
  refine (commandWord_and fmt desc slot op 0#2 0#1 0#4).trans ?_
  simp only [BitVec.and_zero]
  rfl

theorem commandWord_and_slot : commandWord fmt desc slot op &&& 0x00000FFF#32 = commandWord 0 .a slot op := by
  refine (commandWord_and fmt desc slot op 0#2 0#1 (.allOnes 4)).trans ?_
  simp only [BitVec.and_zero, BitVec.and_allOnes]
  rfl

theorem commandWord_and_fmt : commandWord fmt desc slot op &&& 0x000300FF#32 = commandWord fmt .a 0 op := by
  refine (commandWord_and fmt desc slot op (.allOnes 2) 0#1 0#4).trans ?_
  simp only [BitVec.and_zero, BitVec.and_allOnes]
  rfl

theorem commandWord_and_desc_fmt : commandWord fmt desc slot op &&& 0x000310FF#32 = commandWord fmt desc 0 op := by
  refine (commandWord_and fmt desc slot op (.allOnes 2) (.allOnes 1) 0#4).trans ?_
  simp only [BitVec.and_zero, BitVec.and_allOnes]
  rfl

end

/-- A row's command is well-formed, and its word is the row's word on the bits it uses (30_encoding R96). -/
theorem encode_row {desc : Desc} {fmt slot : Nat} (hfmt : fmtFits fmt) (hslot : slotFits slot) {row : Nat × Instr}
    (hrow : row ∈ opcodeTable desc fmt slot) :
    row.2.wf = true ∧ encode row.2 = commandWord fmt desc slot row.1 &&& Machine.usedBits row.2 := by
  have hf : decide (fmtFits fmt) = true := decide_eq_true hfmt
  have hs : decide (slotFits slot) = true := decide_eq_true hslot
  fin_cases hrow
  exacts [⟨rfl, (commandWord_and_op ..).symm⟩, ⟨rfl, (commandWord_and_op ..).symm⟩, ⟨rfl, (commandWord_and_op ..).symm⟩,
    ⟨hf, (commandWord_and_desc_fmt ..).symm⟩,
    ⟨hs, (commandWord_and_slot ..).symm⟩, ⟨hs, (commandWord_and_slot ..).symm⟩, ⟨hs, (commandWord_and_slot ..).symm⟩,
    ⟨hs, (commandWord_and_slot ..).symm⟩,
    ⟨hf, (commandWord_and_fmt ..).symm⟩, ⟨hf, (commandWord_and_fmt ..).symm⟩, ⟨hf, (commandWord_and_fmt ..).symm⟩,
    ⟨hf, (commandWord_and_fmt ..).symm⟩,
    ⟨hf, (commandWord_and_desc_fmt ..).symm⟩]

/-- A word with a reserved bit set is no command (30_encoding R92, R99). -/
theorem decode_reserved {c : Word} (h : c &&& 0xFFFCE000#32 ≠ 0#32) : decode c = .error .reservedBits := by
  rw [Ne, reserved_mask, not_and_or] at h
  rw [decode, if_pos h]

/-- A word without a reserved bit whose OP is unassigned is no command (30_encoding R98, R99). -/
theorem decode_unassigned {c : Word} (hres : c &&& 0xFFFCE000#32 = 0#32) (hop : (opField c).toNat ∉ Machine.assignedOps) :
    decode c = .error .unassignedOp := by
  have h := (reserved_mask c).1 hres
  rw [decode, if_neg (by simp [h])]
  split
  case h_14 => rfl
  all_goals simp_all [Machine.assignedOps]

/-- A word without a reserved bit and with an assigned OP decodes, and agrees with its command's own word on the used bits
(30_encoding R96, R99). -/
theorem decode_assigned {c : Word} (hres : c &&& 0xFFFCE000#32 = 0#32) (hop : (opField c).toNat ∈ Machine.assignedOps) :
    ∃ i, decode c = .ok i ∧ i.wf = true ∧ encode i = c &&& Machine.usedBits i := by
  obtain ⟨h1, h0⟩ := (reserved_mask c).1 hres
  have hfmt : fmtFits (fmtField c).toNat := (fmtField c).isLt
  have hslot : slotFits (slotField c).toNat := (slotField c).isLt
  obtain ⟨i, hrow⟩ := exists_row_of_assigned hop (descOfBit (descField c)) (fmtField c).toNat (slotField c).toNat
  have hdecode := decode_row hfmt hslot hrow
  have hencode := encode_row hfmt hslot hrow
  rw [← eq_commandWord_of_legal h1 h0] at hdecode hencode
  exact ⟨i, hdecode, hencode⟩

/-- Settles O3: the three cases of `decode_reserved`, `decode_unassigned` and `decode_assigned`. -/
theorem illegalWordsAreReservedBitsOrUnassignedOps : Obligations.IllegalWordsAreReservedBitsOrUnassignedOps := by
  intro c
  rw [op_mask]
  by_cases hres : c &&& 0xFFFCE000#32 = 0#32
  · by_cases hop : (opField c).toNat ∈ Machine.assignedOps
    · obtain ⟨i, hi, -⟩ := decode_assigned hres hop
      simp [hi, hres, hop]
    · simp [decode_unassigned hres hop, hop]
  · simp [decode_reserved hres, hres]

/-- Settles O2: a word that decodes is not illegal (O3), so `decode_assigned` speaks of it. -/
theorem decodedWordIsTheCommandOnItsUsedBits : Obligations.DecodedWordIsTheCommandOnItsUsedBits := by
  intro c i h
  have hlegal := (illegalWordsAreReservedBitsOrUnassignedOps c).not.1 (by simp [h])
  rw [op_mask] at hlegal
  push Not at hlegal
  obtain ⟨hres, hop⟩ := hlegal
  obtain ⟨i', hi', hwf, hword⟩ := decode_assigned hres hop
  obtain rfl : i = i' := Except.ok.inj (h.symm.trans hi')
  exact ⟨hwf, hword⟩

/-- Settles O4, word by word. -/
theorem exampleWordsDecodeToTheirCommands : Obligations.ExampleWordsDecodeToTheirCommands := by
  unfold Obligations.ExampleWordsDecodeToTheirCommands
  decide

end Sys2Proof
end

section
/-! SUPPORT. The claims about an illegal word, an unknown format code and `wait_idle`: O6, O23, O54 (30_encoding R92, R93, R98, R103). -/

namespace Sys2Proof.Machine

/-! ### An illegal word, an unknown format -/

/-- Acceptance changes no register but CMD and STATUS (60_exceptions R233). -/
theorem sameRegsExcept_accept (c : Word) (s : State) : SameRegsExcept [.status, .cmd] s (accept c s) := by
  intro r h
  cases r <;> first | rfl | simp at h

/-- Settles O6: the word is no command by O3, and `complete` runs on the accepted state. -/
theorem illegalWordFailsWithEIllegalOnly : Obligations.IllegalWordFailsWithEIllegalOnly := by
  intro s c rest hscript hbusy hillegal
  obtain ⟨e, he⟩ := (illegalWordsAreReservedBitsOrUnassignedOps c).2 hillegal
  have hstep : step s = .next (complete .eIllegal (accept c { s with script := rest })) := by
    rw [step_cons hscript]
    exact (hostWrite_cmd c _).trans (request_error hbusy he)
  exact ⟨_, hstep, .of_complete (sameRegsExcept_accept c _) (fun _ => rfl) rfl rfl (.refl _), rfl⟩

/-- Settles O23: each of the five runs under `withFormat`, and the code names no format. -/
theorem unknownFormatFailsWithEConfig : Obligations.UnknownFormatFailsWithEConfig := by
  intro desc fmt s h1 h2 i hi
  have hnone : formatOf fmt = none := formatOf_eq_none.2 ⟨h1, h2⟩
  have hexec : exec i s = .next (complete .eConfig s) := by
    revert i
    simp only [List.forall_mem_cons, List.not_mem_nil, false_implies, implies_true, and_true]
    exact ⟨withFormat_none hnone s _, withFormat_none hnone s _, withFormat_none hnone s _, withFormat_none hnone s _,
      withFormat_none hnone s _⟩
  exact ⟨_, hexec, .complete_self .eConfig s⟩

/-! ### `wait_idle` -/

theorem pollIdle_idle {s : State} (h : s.busy = false) : pollIdle s = { s with hostData := readReg .status s } := by
  rw [pollIdle, (statusWord_fields s).1, h]
  rfl

theorem pollIdle_busy {s : State} (h : s.busy = true) :
    pollIdle s = { s with hostData := readReg .status s, script := .engine none :: .waitIdle :: s.script } := by
  rw [pollIdle, (statusWord_fields s).1, h]
  rfl

/-- The script and the data last returned stand in no register (10_state R21). -/
theorem sameRegsExcept_nil_script (s : State) (script : List Action) (d : Word) :
    SameRegsExcept [] s { s with script := script, hostData := d } := by
  intro r _
  cases r <;> rfl

/-- Settles O54: the two cases of a poll, and the engine step that a busy one puts first in the script. -/
theorem waitIdlePollsUntilTheEngineIsDone : Obligations.WaitIdlePollsUntilTheEngineIsDone := by
  intro s rest hscript
  have hstep : step s = .next (pollIdle { s with script := rest }) := step_cons hscript
  refine ⟨fun hidle => hstep.trans (congrArg _ (pollIdle_idle hidle)), fun hbusy => ?_⟩
  exact ⟨_, hstep.trans (congrArg _ (pollIdle_busy hbusy)), rfl, sameRegsExcept_nil_script s _ _, fun _ => rfl,
    step_cons (x := .engine none) (rest := .waitIdle :: rest) rfl⟩

end Sys2Proof.Machine
end

section
/-! SUPPORT. The claims about the blends: O24, O25, O26 (40_blend R114 to R118). -/

namespace Sys2Proof.Machine

/-! ### BLEND2 and BLEND4 -/

theorem exec_blend2 {fmt : Nat} {f : Format} (hf : formatOf fmt = some f) (s : State) :
    exec (.blend2 fmt) s = .next (complete .eNone { s with
      result := blend2 f (px f (readReg .opa s)) (px f (readReg .opb s)) }) :=
  withFormat_some hf s _

theorem exec_blend4 {fmt : Nat} {f : Format} (hf : formatOf fmt = some f) (s : State) :
    exec (.blend4 fmt) s = .next (complete .eNone { s with
      result := blend4 f (px f (readReg .opa s)) (px f (readReg .opb s)) (px f (readReg .opc s)) (px f (readReg .opd s)) }) :=
  withFormat_some hf s _

/-- Settles O24: RESULT is `blend2` of the operands' elements, whose channels are the operands' own. -/
theorem blend2AveragesEachChannel : Obligations.Blend2AveragesEachChannel := by
  intro fmt f s hfmt
  obtain ⟨helem, havg⟩ := blend2_channel f (px f (readReg .opa s)) (px f (readReg .opb s))
  refine ⟨_, exec_blend2 (formatOf_eq_some.2 hfmt) s, .complete_result .eNone s _, helem, fun ch hch => (havg ch hch).trans ?_⟩
  rw [channel_px f _ hch, channel_px f _ hch]

/-- Settles O25: RESULT is `blend4` of the operands' elements, whose channels are the operands' own. -/
theorem blend4AveragesEachChannel : Obligations.Blend4AveragesEachChannel := by
  intro fmt f s hfmt
  obtain ⟨helem, havg⟩ :=
    blend4_channel f (px f (readReg .opa s)) (px f (readReg .opb s)) (px f (readReg .opc s)) (px f (readReg .opd s))
  refine ⟨_, exec_blend4 (formatOf_eq_some.2 hfmt) s, .complete_result .eNone s _, helem, fun ch hch => (havg ch hch).trans ?_⟩
  rw [channel_px f _ hch, channel_px f _ hch, channel_px f _ hch, channel_px f _ hch]

/-! ### The order of the operands, and a colour with itself (40_blend R115) -/

theorem blend2_comm (f : Format) (a b : Word) : blend2 f a b = blend2 f b a := by
  obtain ⟨helem, havg⟩ := blend2_channel f a b
  obtain ⟨helem', havg'⟩ := blend2_channel f b a
  refine element_ext f helem helem' fun ch hch => ?_
  rw [havg ch hch, havg' ch hch, Nat.add_comm]

/-- A channel of blend4 depends on the sum of the operands' channels, which no permutation changes. -/
theorem blend4_perm (f : Format) {a b c d a' b' c' d' : Word} (h : [a, b, c, d].Perm [a', b', c', d']) :
    blend4 f a b c d = blend4 f a' b' c' d' := by
  obtain ⟨helem, havg⟩ := blend4_channel f a b c d
  obtain ⟨helem', havg'⟩ := blend4_channel f a' b' c' d'
  refine element_ext f helem helem' fun ch hch => ?_
  have hsum : channel a ch + channel b ch + channel c ch + channel d ch =
      channel a' ch + channel b' ch + channel c' ch + channel d' ch := by
    simpa [Nat.add_assoc] using (h.map (channel · ch)).sum_eq
  rw [havg ch hch, havg' ch hch, hsum]

theorem blend4_self (f : Format) {c : Word} (h : IsElement f c) : blend4 f c c c c = c := by
  obtain ⟨helem, havg⟩ := blend4_channel f c c c c
  refine element_ext f helem h fun ch hch => ?_
  rw [havg ch hch]
  omega

/-- Settles O26, channel by channel: equal channels make equal elements (`element_ext`). -/
theorem blendsAreSymmetricAndIdempotent : Obligations.BlendsAreSymmetricAndIdempotent := by
  intro f
  refine ⟨blend2_comm f, ?_, fun c hc => ⟨blend2_self f hc, blend4_self f hc⟩⟩
  rintro l l' hperm a b c d a' b' c' d' rfl rfl
  exact blend4_perm f hperm

end Sys2Proof.Machine
end

section
/-! SUPPORT. The claims about CMP, the cases, and what the classifier and BLOCK read: O27, O29, O30, O37 (41_classifier R131 to R139,
42_kernels R160, R165). -/

namespace Sys2Proof.Machine

/-! ### What BLOCK reads (41_classifier R139) -/

/-- Two windows that agree on the first three rows, and on N in kernel A, have the same block. -/
theorem kernel_winWindow_congr (desc : Desc) (f : Format) {s s' : State}
    (hrows : ∀ k : Fin 16, k < 12 → px f (readReg (.win k) s) = px f (readReg (.win k) s'))
    (hn : desc = .a → px f (readReg (.win 13) s) = px f (readReg (.win 13) s')) :
    kernel desc f (winWindow f s) = kernel desc f (winWindow f s') := by
  have hlast : winWindow f s = { winWindow f s' with
      m := (winWindow f s).m, n := (winWindow f s).n, o := (winWindow f s).o, p := (winWindow f s).p } := by
    simp (disch := decide) only [winWindow, hrows]
  rw [hlast]
  exact kernel_congr desc f _ _ _ _ _ hn

/-- Settles O37: BLOCK answers the kernel's block, and the kernel reads the first three rows, and N in kernel A only. -/
theorem blockIgnoresTheRegistersOutsideItsReadSet : Obligations.BlockIgnoresTheRegistersOutsideItsReadSet := by
  intro desc fmt f s s' t t' hfmt hagree ht ht' r hr
  have hf := formatOf_eq_some.2 hfmt
  have hkernel : kernel desc f (winWindow f s) = kernel desc f (winWindow f s') := by
    refine kernel_winWindow_congr desc f (fun k hk => ?_) fun hdesc => ?_
    · exact hagree k (by omega) (by omega) (by omega) fun _ => by omega
    · exact hagree 13 (by decide) (by decide) (by decide) fun hb => nomatch hdesc.symm.trans hb
  obtain rfl := Host.Outcome.next.inj ((exec_block desc hf s).symm.trans ht)
  obtain rfl := Host.Outcome.next.inj ((exec_block desc hf s').symm.trans ht')
  rw [hkernel]
  revert r
  simp only [List.forall_mem_cons, List.not_mem_nil, false_implies, implies_true, and_true]
  exact ⟨rfl, rfl, rfl, rfl⟩

/-! ### CMP -/

theorem exec_cmp {fmt : Nat} {f : Format} (hf : formatOf fmt = some f) (s : State) :
    exec (.cmp fmt) s = .next (complete .eNone { s with
      result := (BitVec.ofInt 2 (comparePx (px f (readReg .opa s)) (px f (readReg .opb s)) (px f (readReg .opc s))
        (px f (readReg .opd s)))).signExtend 32 }) :=
  withFormat_some hf s _

/-- The comparison as RESULT shows it, by the three values of `comparePx_eq` (41_classifier R132, R133). -/
theorem signExtend_comparePx (w x y z : Word) : (BitVec.ofInt 2 (comparePx w x y z)).signExtend 32 =
    if w ≠ x ∧ y = x ∧ z = x then 0x00000001#32 else if w ≠ x ∧ y = w ∧ z = w then 0xFFFFFFFF#32 else 0x00000000#32 := by
  rw [comparePx_eq]
  split_ifs <;> rfl

/-- Settles O27: RESULT is `comparePx` of the operands' elements, sign-extended, and takes the three values in order. -/
theorem cmpAnswersTheDirectionalComparison : Obligations.CmpAnswersTheDirectionalComparison := by
  intro fmt f s hfmt
  refine ⟨_, exec_cmp (formatOf_eq_some.2 hfmt) s, .complete_result .eNone s _, ?_⟩
  intro w x y z
  have hvalue := signExtend_comparePx w x y z
  refine ⟨fun ⟨hy, hz, hwx⟩ => hvalue.trans ?_, fun ⟨hy, hz, hwx⟩ => hvalue.trans ?_, fun hplus hminus => hvalue.trans ?_⟩
  · rw [if_pos ⟨hwx, hy, hz⟩]
  · rw [if_neg fun h => hwx (hy.symm.trans h.2.1), if_pos ⟨hwx, hy, hz⟩]
  · rw [if_neg fun ⟨hwx, hy, hz⟩ => hplus ⟨hy, hz, hwx⟩, if_neg fun ⟨hwx, hy, hz⟩ => hminus ⟨hy, hz, hwx⟩]

/-! ### The three cases by the centre (41_classifier R136) -/

/-- `case(W)` with its first test in words: exactly one of the pairs (A, B), (A, C) is equal. -/
theorem caseOf_eq (w : Window) : caseOf w =
    if w.a = w.b ∧ w.a ≠ w.c ∨ w.a ≠ w.b ∧ w.a = w.c then .edge
    else if w.a = w.d ∧ w.b = w.c ∧ w.a ≠ w.b then .diag
    else .generic := by
  have hone : decide (w.a = w.b) ≠ decide (w.a = w.c) ↔ w.a = w.b ∧ w.a ≠ w.c ∨ w.a ≠ w.b ∧ w.a = w.c := by
    by_cases hab : w.a = w.b <;> by_cases hac : w.a = w.c <;> simp [hab, hac]
  exact if_congr hone rfl rfl

/-- Settles O29: in the order of the tests, what each says of A, B, C and D excludes the other two cases. -/
theorem casesAreCharacterisedByTheCentre : Obligations.CasesAreCharacterisedByTheCentre := by
  intro w
  rw [caseOf_eq]
  split_ifs with hedge hdiag
  · have hbc : w.b ≠ w.c := fun hbc => by rw [hbc] at hedge; tauto
    exact ⟨iff_of_true rfl hedge, iff_of_false nofun fun h => hbc h.2.1, iff_of_false nofun (by tauto)⟩
  · exact ⟨iff_of_false nofun hedge, iff_of_true rfl hdiag, iff_of_false nofun (by tauto)⟩
  · have hboth : w.a = w.b ↔ w.a = w.c := by tauto
    have hgeneric : w.a = w.b ∧ w.b = w.c ∨ w.a ≠ w.b ∧ w.a ≠ w.c ∧ ¬(w.a = w.d ∧ w.b = w.c) := by
      by_cases hab : w.a = w.b
      · exact .inl ⟨hab, hab.symm.trans (hboth.1 hab)⟩
      · exact .inr ⟨hab, mt hboth.2 hab, fun ⟨had, hbc⟩ => hdiag ⟨had, hbc, hab⟩⟩
    exact ⟨iff_of_false nofun hedge, iff_of_false nofun hdiag, iff_of_true rfl hgeneric⟩

/-! ### Equalities only (41_classifier R137 (4), 42_kernels R165) -/

section
variable {g : Word → Word} (hg : Function.Injective g)
include hg

theorem comparePx_map (w x y z : Word) : comparePx (g w) (g x) (g y) (g z) = comparePx w x y z := by
  simp only [comparePx_eq, ne_eq, hg.eq_iff]

theorem vote_map (w : Window) : vote (w.map g) = vote w := by
  simp only [vote, Window.map, comparePx_map hg]

theorem caseOf_map (w : Window) : caseOf (w.map g) = caseOf w := by
  simp only [caseOf_eq, Window.map, ne_eq, hg.eq_iff]

end

/-- Settles O30: every test of the classifier is an equality of two elements, which a one-to-one change keeps. -/
theorem caseAndVoteDependOnEqualitiesOnly : Obligations.CaseAndVoteDependOnEqualitiesOnly := by
  intro g w hone
  have hg : Function.Injective g := fun x y => hone x y
  exact ⟨caseOf_map hg w, vote_map hg w⟩

end Sys2Proof.Machine
end

section
/-! SUPPORT. The claims about the kernels: O32 to O36 (42_kernels R152 to R164). -/

namespace Sys2Proof.Machine

/-! ### EDGE and DIAG (42_kernels R152 to R155) -/

theorem diagCorner_of_vote_pos (d : Desc) (f : Format) {w : Window} (h : 0 < vote w) : diagCorner d f w = w.a :=
  if_pos h

theorem diagCorner_of_vote_neg (d : Desc) (f : Format) {w : Window} (h : vote w < 0) : diagCorner d f w = w.b :=
  (if_neg h.le.not_gt).trans (if_pos h)

theorem diagCorner_of_vote_zero (f : Format) {w : Window} (h : vote w = 0) :
    diagCorner .a f w = blend2 f w.a w.b ∧ diagCorner .b f w = blend4 f w.a w.a w.a w.b :=
  ⟨(if_neg h.not_gt).trans (if_neg h.not_lt), (if_neg h.not_gt).trans (if_neg h.not_lt)⟩

/-- Settles O32: the case of the window fixes the block, and the sign of the vote its corner p11. -/
theorem edgeIsBroadcastAndDiagonalFollowsTheVote : Obligations.EdgeIsBroadcastAndDiagonalFollowsTheVote := by
  intro desc f w
  obtain ⟨hedge, hdiag, -⟩ := casesAreCharacterisedByTheCentre w
  refine ⟨fun h => kernel_edge (hedge.2 h) desc f, fun had hbc hab => ?_⟩
  have hkernel (d : Desc) : kernel d f w = kernelDiag d f w := kernel_diag (hdiag.2 ⟨had, hbc, hab⟩) d f
  rw [hkernel, hkernel, hkernel]
  have hp10 : blend2 f w.a w.c = blend2 f w.a w.b := by rw [hbc]
  exact ⟨rfl, rfl, rfl, hp10, diagCorner_of_vote_pos desc f, diagCorner_of_vote_neg desc f,
    diagCorner_of_vote_zero f⟩

/-! ### GENERIC (42_kernels R156 to R159) -/

/-- Settles O33: an evidence of 2 is both of the equalities that it counts. -/
theorem kernelBTakesAColourOnTwoDiagonals : Obligations.KernelBTakesAColourOnTwoDiagonals := by
  intro f w hcase
  rw [kernel_generic hcase]
  simp only [kernelGeneric, genericP01, genericP10, genericP11, evidenceA01, evidenceB01, evidenceA10, evidenceC10,
    indicator_add_eq_two]

/-- Settles O34: an evidence is the number of its equalities that hold. -/
theorem kernelATakesTheMajorityUnlessARunIsCut : Obligations.KernelATakesTheMajorityUnlessARunIsCut := by
  intro f w hcase
  rw [kernel_generic hcase]
  simp only [kernelGeneric, genericP01, genericP10, genericP11, evidenceA01, evidenceB01, evidenceA10, evidenceC10,
    indicator_add, gt_iff_lt, Nat.cast_lt]

/-! ### The alphabet (42_kernels R161) -/

/-- Two tests in a row answer one of three values. -/
theorem ite_ite_cases {p q : Prop} [Decidable p] [Decidable q] (x y z : Word) :
    (if p then x else if q then y else z) = x ∨ (if p then x else if q then y else z) = y ∨
      (if p then x else if q then y else z) = z := by
  split_ifs
  · exact .inl rfl
  · exact .inr (.inl rfl)
  · exact .inr (.inr rfl)

theorem diagCorner_cases (d : Desc) (f : Format) (w : Window) :
    diagCorner d f w = w.a ∨ diagCorner d f w = w.b ∨ diagCorner d f w = blend2 f w.a w.b ∨
      (d = .b ∧ diagCorner d f w = blend4 f w.a w.a w.a w.b) := by
  cases d
  · exact (ite_ite_cases _ _ _).imp_right (.imp_right .inl)
  · exact (ite_ite_cases _ _ _).imp_right (.imp_right fun h => .inr ⟨rfl, h⟩)

theorem genericP01_cases (d : Desc) (f : Format) (w : Window) :
    genericP01 d f w = w.a ∨ genericP01 d f w = w.b ∨ genericP01 d f w = blend2 f w.a w.b := by
  cases d <;> exact ite_ite_cases _ _ _

theorem genericP10_cases (d : Desc) (f : Format) (w : Window) :
    genericP10 d f w = w.a ∨ genericP10 d f w = w.c ∨ genericP10 d f w = blend2 f w.a w.c := by
  cases d <;> exact ite_ite_cases _ _ _

theorem genericP11_cases (f : Format) (w : Window) :
    genericP11 f w = w.a ∨ genericP11 f w = w.b ∨ genericP11 f w = blend2 f w.a w.d :=
  ite_ite_cases _ _ _

/-- Settles O35, case by case and element by element: each is one of the few values its own tests choose from. -/
theorem kernelOutputsStayInTheAlphabet : Obligations.KernelOutputsStayInTheAlphabet := by
  intro desc f w
  simp only [List.forall_mem_cons, List.not_mem_nil, false_implies, implies_true, and_true]
  cases h : caseOf w with
  | edge =>
    rw [kernel_edge h]
    exact ⟨.inl rfl, .inl rfl, .inl rfl, .inl rfl⟩
  | diag =>
    rw [kernel_diag h]
    refine ⟨.inl rfl, by simp [kernelDiag], by simp [kernelDiag], ?_⟩
    obtain hv | hv | hv | ⟨rfl, hv⟩ := diagCorner_cases desc f w <;> simp [kernelDiag, hv]
  | generic =>
    rw [kernel_generic h]
    refine ⟨.inl rfl, ?_, ?_, ?_⟩
    · obtain hv | hv | hv := genericP01_cases desc f w <;> simp [kernelGeneric, hv]
    · obtain hv | hv | hv := genericP10_cases desc f w <;> simp [kernelGeneric, hv]
    · obtain hv | hv | hv := genericP11_cases f w <;> simp [kernelGeneric, hv]

/-! ### Flat, edge and line windows (42_kernels R162 to R164) -/

/-- Where A, B, C and D are one colour, the alphabet of the kernels is that colour. -/
theorem kernel_of_flat_centre (d : Desc) {f : Format} {w : Window} (ha : IsElement f w.a) (hb : w.b = w.a)
    (hc : w.c = w.a) (hd : w.d = w.a) : kernel d f w = ⟨w.a, w.a, w.a, w.a⟩ := by
  have hone : ∀ v ∈ [(kernel d f w).p00, (kernel d f w).p01, (kernel d f w).p10, (kernel d f w).p11], v = w.a := by
    intro v hv
    have hletter := kernelOutputsStayInTheAlphabet d f w v hv
    rw [hb, hc, hd, blend2_self f ha, blend4_self f ha] at hletter
    tauto
  simp only [List.forall_mem_cons] at hone
  obtain ⟨h00, h01, h10, h11, -⟩ := hone
  calc kernel d f w = ⟨(kernel d f w).p00, (kernel d f w).p01, (kernel d f w).p10, (kernel d f w).p11⟩ := rfl
    _ = ⟨w.a, w.a, w.a, w.a⟩ := by rw [h00, h01, h10, h11]

/-- Along the main diagonal no pair is both A, and (G, H), (K, L) and (E, F) are both B. -/
theorem vote_mainDiagonal {x y : Word} (h : x ≠ y) : vote ⟨x, y, y, y, y, x, y, y, y, y, x, y, y, y, y, x⟩ = 3 := by
  simp [vote, comparePx_eq, h, h.symm]

/-- Along the other diagonal no pair is both B, and (G, H), (K, L) and (E, F) are both A. -/
theorem vote_otherDiagonal {x y : Word} (h : x ≠ y) : vote ⟨y, y, y, x, y, y, x, y, y, x, y, y, x, y, y, y⟩ = -3 := by
  simp [vote, comparePx_eq, h, h.symm]

/-- Settles O36: a flat window by the alphabet, an edge by its broadcast, a line by the sign of its vote. -/
theorem flatEdgeAndLineWindowsStaySharp : Obligations.FlatEdgeAndLineWindowsStaySharp := by
  intro desc f x y hx hxy
  have hedge (w : Window) := (edgeIsBroadcastAndDiagonalFollowsTheVote desc f w).1
  have hdiag (w : Window) := (edgeIsBroadcastAndDiagonalFollowsTheVote desc f w).2
  refine ⟨kernel_of_flat_centre desc hx rfl rfl rfl, hedge _ (.inr ⟨hxy, rfl⟩), hedge _ (.inl ⟨rfl, hxy⟩),
    vote_mainDiagonal hxy, ?_, vote_otherDiagonal hxy, ?_⟩
  · obtain ⟨-, -, -, -, hpos, -, -⟩ := hdiag ⟨x, y, y, y, y, x, y, y, y, y, x, y, y, y, y, x⟩ rfl rfl hxy
    exact hpos (by rw [vote_mainDiagonal hxy]; decide)
  · obtain ⟨-, -, -, -, -, hneg, -⟩ := hdiag ⟨y, y, y, x, y, y, x, y, y, x, y, y, x, y, y, y⟩ rfl rfl hxy.symm
    exact hneg (by rw [vote_otherDiagonal hxy]; decide)

end Sys2Proof.Machine
end

section
/-! SUPPORT. The claims about the registry commands: O16 to O20 and O22 (43_registry R180 to R189). -/

namespace Sys2Proof.Machine

/-! ### What completion leaves after a change of slots or of OUTW and OUTH -/

/-- A change of one slot shows in no register but SLOTS and SLOTCFG (10_state R28, R29). -/
theorem sameRegsExcept_setSlot (i : Nat) (x : Option Inst) (s : State) : SameRegsExcept [.slots, .slotcfg] s (setSlot i x s) := by
  intro r h
  cases r with
  | slots | slotcfg => simp at h
  | _ => rfl

theorem SameRegsExcept.mono {l l' : List Reg} {s t : State} (h : SameRegsExcept l s t) (hl : l ⊆ l') : SameRegsExcept l' s t :=
  fun r hr => h r (mt (@hl r) hr)

/-- A command whose one effect is on a slot (43_registry R185). -/
theorem CommandEffect.complete_setSlot (err : Err) (s : State) (i : Nat) (x : Option Inst) :
    CommandEffect [.slots, .slotcfg] err s (complete err (setSlot i x s)) :=
  .of_complete ((sameRegsExcept_setSlot i x s).mono (List.subset_cons_self ..)) (by simp) rfl rfl (.refl s)

/-- A command that changes a slot and answers in RESULT (43_registry R183). -/
theorem CommandEffect.complete_setSlot_result (err : Err) (s : State) (i : Nat) (x : Option Inst) (v : Word) :
    CommandEffect [.result, .slots, .slotcfg] err s (complete err { setSlot i x s with result := v }) := by
  refine .of_complete (fun r h => ?_) (by simp) rfl rfl (.refl s)
  rw [← sameRegsExcept_setSlot i x s r (by simp_all)]
  cases r with
  | result => simp at h
  | _ => rfl

/-- A command whose results are OUTW and OUTH (43_registry R186). -/
theorem CommandEffect.complete_outDims (err : Err) (s : State) (v w : Word) :
    CommandEffect [.outw, .outh] err s (complete err { s with outw := v, outh := w }) := by
  refine .of_complete (fun r h => ?_) (fun _ => rfl) rfl rfl (.refl s)
  cases r with
  | outw | outh => simp at h
  | _ => rfl

/-! ### NOP, QINFMT, QOUTFMT and FIRSTPASS (43_registry R180, R181, R182, R187) -/

theorem exec_firstpass {slot : Nat} {inst : Inst} {s : State} (hi : instAt s slot = some inst) :
    exec (.firstpass slot) s = .next (complete .eNone s) :=
  withSlot_some hi _

/-- Settles O16: NOP and FIRSTPASS complete on the state itself, the two queries on a state with a new RESULT. -/
theorem queriesAndHooksComplete : Obligations.QueriesAndHooksComplete := by
  intro s
  exact ⟨⟨_, rfl, .complete_self .eNone s⟩, fun _ _ hi => ⟨_, exec_firstpass hi, .complete_self .eNone s⟩,
    ⟨_, rfl, .complete_result .eNone s _, rfl⟩, ⟨_, rfl, .complete_result .eNone s _, rfl⟩⟩

/-! ### CREATE (43_registry R183, R184) -/

theorem exec_create_unknownFormat (desc : Desc) {fmt : Nat} (hf : formatOf fmt = none) (s : State) :
    exec (.create desc fmt) s = .next (complete .eConfig { s with result := 0xFFFFFFFF#32 }) := by
  rw [exec, execCreate, hf, failCreate_eq]

theorem exec_create_noFreeSlot (desc : Desc) {fmt : Nat} {f : Format} (hf : formatOf fmt = some f) {s : State}
    (hs : firstFree s = none) : exec (.create desc fmt) s = .next (complete .eNomem { s with result := 0xFFFFFFFF#32 }) := by
  simp only [exec, execCreate, hf, hs, failCreate_eq]

theorem exec_create_freeSlot (desc : Desc) {fmt : Nat} {f : Format} (hf : formatOf fmt = some f) {s : State} {i : Nat}
    (hs : firstFree s = some i) : exec (.create desc fmt) s =
      .next (complete .eNone { setSlot i (some ⟨f, desc⟩) s with result := BitVec.ofNat 32 i }) := by
  simp only [exec, execCreate, hf, hs]

/-- Settles O17: the slot is `firstFree`'s, and `setSlot` changes that slot only. -/
theorem createTakesTheLeastFreeSlot : Obligations.CreateTakesTheLeastFreeSlot := by
  intro desc fmt f s i hfmt hi hfree hbelow
  exact ⟨_, exec_create_freeSlot desc (formatOf_eq_some.2 hfmt) (firstFree_eq_some hi hfree hbelow),
    .complete_setSlot_result .eNone s i _ _, rfl, instAt_setSlot_same s hi _, fun _ hk => instAt_setSlot_ne s hk _⟩

/-- Settles O18: both failures complete on a state that has 0xFFFFFFFF in RESULT. -/
theorem createFailsWithTheNullInstance : Obligations.CreateFailsWithTheNullInstance := by
  intro desc fmt s
  refine ⟨fun hfmt => ⟨_, exec_create_unknownFormat desc (formatOf_eq_none.2 hfmt) s, .complete_result .eConfig s _, rfl⟩,
    fun hfmt hlive => ?_⟩
  obtain ⟨f, hf⟩ : ∃ f, formatOf fmt = some f := by
    obtain rfl | rfl := hfmt
    · exact ⟨_, formatOf_one⟩
    · exact ⟨_, formatOf_two⟩
  exact ⟨_, exec_create_noFreeSlot desc hf (firstFree_eq_none hlive), .complete_result .eNomem s _, rfl⟩

/-! ### DESTROY (43_registry R185) -/

theorem exec_destroy {slot : Nat} {inst : Inst} {s : State} (hi : instAt s slot = some inst) :
    exec (.destroy slot) s = .next (complete .eNone (setSlot slot none s)) :=
  withSlot_some hi _

theorem exec_destroy_missing {slot : Nat} {s : State} (hi : instAt s slot = none) :
    exec (.destroy slot) s = .next (complete .eNoslot s) :=
  withSlot_none hi _

/-- The fields of a free slot (10_state R40). -/
theorem slot_of_free {s : State} {i : Nat} (h : instAt s i = none) :
    slotValid s i = false ∧ slotFmt s i = 0#2 ∧ slotDesc s i = 0#1 := by
  simp [slotValid, slotFmt, slotDesc, h]

/-- Settles O19: the slot is free after the first DESTROY, so the second one fails its check. -/
theorem destroyFreesItsSlotOnce : Obligations.DestroyFreesItsSlotOnce := by
  intro slot inst s hi
  have hfree : instAt (complete .eNone (setSlot slot none s)) slot = none := instAt_setSlot_same s (lt_nslot_of_instAt hi) none
  obtain ⟨hvalid, hfmt, hdesc⟩ := slot_of_free hfree
  exact ⟨_, exec_destroy hi, .complete_setSlot .eNone s slot none, hvalid, hfmt, hdesc, fun _ hk => instAt_setSlot_ne s hk none,
    _, exec_destroy_missing hfree, .complete_self .eNoslot _⟩

/-! ### OUTSIZE (43_registry R186) -/

theorem exec_outsize {slot : Nat} {inst : Inst} {s : State} (hi : instAt s slot = some inst)
    (hw : s.width ≠ 0#16) (hh : s.height ≠ 0#16) : exec (.outsize slot) s =
      .next (complete .eNone { s with outw := 2#32 * s.width.setWidth 32, outh := 2#32 * s.height.setWidth 32 }) := by
  rw [exec, execOutsize, withSlot_some hi, if_neg (not_or.2 ⟨hw, hh⟩)]

theorem exec_outsize_zero {slot : Nat} {inst : Inst} {s : State} (hi : instAt s slot = some inst)
    (h : s.width = 0#16 ∨ s.height = 0#16) : exec (.outsize slot) s = .next (complete .eSize s) := by
  rw [exec, execOutsize, withSlot_some hi, if_pos h, fail_eq]

/-- A dimension reads as 0 exactly when it is 0 (10_state R34, R35). -/
theorem setWidth_dim_eq_zero {d : BitVec 16} : d.setWidth 32 = 0#32 ↔ d = 0#16 := by
  rw [← BitVec.toNat_inj, ← BitVec.toNat_inj, BitVec.toNat_setWidth_of_le (by decide)]
  rfl

/-- Twice a dimension fits a register: at most 131070 (43_registry R186). -/
theorem toNat_two_mul_dim (d : BitVec 16) : (2#32 * d.setWidth 32).toNat = 2 * (d.setWidth 32).toNat := by
  rw [BitVec.toNat_mul, BitVec.toNat_setWidth_of_le (by decide)]
  exact Nat.mod_eq_of_lt (by have := d.isLt; simp; omega)

/-- Settles O20: the two outcomes of OUTSIZE on a live slot, and no product wraps. -/
theorem outsizeDoublesTheDimensions : Obligations.OutsizeDoublesTheDimensions := by
  intro slot inst s hi
  refine ⟨fun hw hh => ?_, fun hzero => ?_⟩
  · exact ⟨_, exec_outsize hi (mt setWidth_dim_eq_zero.2 hw) (mt setWidth_dim_eq_zero.2 hh), .complete_outDims .eNone s _ _,
      toNat_two_mul_dim s.width, toNat_two_mul_dim s.height⟩
  · exact ⟨_, exec_outsize_zero hi (hzero.imp setWidth_dim_eq_zero.1 setWidth_dim_eq_zero.1), .complete_self .eSize s⟩

/-! ### Independence of the slots (43_registry R189) -/

/-- A command on one slot commutes with a change of another one if its continuation does. -/
theorem withSlot_setSlot_ne {i k : Nat} (h : i ≠ k) (x : Option Inst) (s : State) {cont cont' : Inst → State}
    (hcont : ∀ inst, cont' inst = setSlot k x (cont inst)) :
    withSlot i (setSlot k x s) cont' = mapNext (setSlot k x) (withSlot i s cont) := by
  have hat : instAt (setSlot k x s) i = instAt s i := instAt_setSlot_ne s h x
  cases hi : instAt s i with
  | none =>
    rw [withSlot_none (hat.trans hi), withSlot_none hi]
    rfl
  | some inst =>
    rw [withSlot_some (hat.trans hi), withSlot_some hi, hcont]
    rfl

/-- RENDER's checks read no slot but its own (44_render R202). -/
theorem renderCheck_setSlot (f : Format) (k : Nat) (x : Option Inst) (s : State) :
    renderCheck f (setSlot k x s) = renderCheck f s := rfl

/-- Settles O22: the continuation of each of the four commands commutes with a change of another slot. -/
theorem commandsOnOneSlotIgnoreTheOthers : Obligations.CommandsOnOneSlotIgnoreTheOthers := by
  intro i k x s hik
  simp only [List.forall_mem_cons, List.not_mem_nil, false_implies, implies_true, and_true]
  refine ⟨?destroy, ?outsize, ?firstpass, ?render⟩ <;> refine withSlot_setSlot_ne hik x s fun inst => ?_
  case destroy => exact congrArg (complete .eNone) (setSlot_comm s hik none x)
  case outsize =>
    rw [apply_ite (setSlot k x)]
    rfl
  case firstpass => rfl
  case render =>
    rw [renderCheck_setSlot]
    cases renderCheck inst.fmt s <;> rfl

end Sys2Proof.Machine
end

section
/-! SUPPORT. The claims about RENDER's checks and about a slot that is not live: O21, O38 (44_render R201, R202; 43_registry R189). -/

namespace Sys2Proof.Machine

/-! ### A slot that is not live (30_encoding R95) -/

theorem instAt_eq_none_of_missing {s : State} {slot : Nat} (h : Config.nslot ≤ slot ∨ slotValid s slot = false) :
    instAt s slot = none := by
  rcases h with hout | hfree
  · exact instAt_eq_none_of_le s hout
  · simpa [slotValid] using hfree

/-- Settles O21: each of the four commands tests its slot first (`withSlot`). -/
theorem commandOnAMissingSlotFailsWithENoslot : Obligations.CommandOnAMissingSlotFailsWithENoslot := by
  intro slot s h i hi
  have hnone := instAt_eq_none_of_missing h
  refine ⟨complete .eNoslot s, ?_, .complete_self .eNoslot s⟩
  simp only [List.mem_cons, List.not_mem_nil, or_false] at hi
  rcases hi with rfl | rfl | rfl | rfl <;> exact withSlot_none hnone _

/-! ### The raster checks (44_render R202) -/

theorem exec_render_failed {slot : Nat} {inst : Inst} {s : State} {err : Err} (hi : instAt s slot = some inst)
    (hk : renderCheck inst.fmt s = some err) : exec (.render slot) s = .next (complete err s) := by
  change withSlot slot s _ = _
  rw [withSlot_some hi, hk]
  rfl

/-- A dimension reads as its number (10_state R34, R35). -/
theorem toNat_setWidth_dim (d : BitVec 16) : (d.setWidth 32).toNat = d.toNat := BitVec.toNat_setWidth_of_le (by decide)

theorem strideTooSmall_iff {e : Nat} {s : State} : strideTooSmall e s = true ↔
    s.srcStride.toNat < s.width.toNat * e ∨ s.dstStride.toNat < 2 * s.width.toNat * e := by
  simp [strideTooSmall]

/-- Check 1 of R202. -/
theorem renderCheck_zero {f : Format} {s : State} (h : s.width = 0#16 ∨ s.height = 0#16) : renderCheck f s = some .eSize :=
  if_pos h

/-- Check 2 of R202. -/
theorem renderCheck_misaligned {f : Format} {s : State} (h : ¬ (s.width = 0#16 ∨ s.height = 0#16))
    (hm : misaligned (esz f) s = true) : renderCheck f s = some .eAlign := by
  rw [renderCheck, if_neg h, if_pos hm]

/-- Check 3 of R202. -/
theorem renderCheck_strideTooSmall {f : Format} {s : State} (h : ¬ (s.width = 0#16 ∨ s.height = 0#16))
    (hm : ¬ misaligned (esz f) s = true) (hs : strideTooSmall (esz f) s = true) : renderCheck f s = some .eSize := by
  rw [renderCheck, if_neg h, if_neg hm, if_pos hs]

/-- Settles O38: the three clauses are the first three answers of `renderCheck`, in its order. -/
theorem renderReportsTheFirstFailingCheck : Obligations.RenderReportsTheFirstFailingCheck := by
  intro slot inst s hi e reg aligned
  have hwidth : reg .width = s.width.toNat := toNat_setWidth_dim s.width
  have hheight : reg .height = s.height.toNat := toNat_setWidth_dim s.height
  have hzero : reg .width = 0 ∨ reg .height = 0 ↔ s.width = 0#16 ∨ s.height = 0#16 := by
    rw [hwidth, hheight, ← BitVec.toNat_inj, ← BitVec.toNat_inj]
    rfl
  have hmis : misaligned e s = true ↔ ¬ aligned := misaligned_iff
  have fails {err : Err} (hk : renderCheck inst.fmt s = some err) :
      ∃ t, exec (.render slot) s = .next t ∧ CommandEffect [] err s t :=
    ⟨_, exec_render_failed hi hk, .complete_self err s⟩
  refine ⟨fun h => fails (renderCheck_zero (hzero.1 h)), fun hw hh ha => ?_, fun hw hh ha hs => ?_⟩
  · exact fails (renderCheck_misaligned (mt hzero.2 (not_or.2 ⟨hw, hh⟩)) (hmis.2 ha))
  · exact fails (renderCheck_strideTooSmall (mt hzero.2 (not_or.2 ⟨hw, hh⟩)) (fun hm => hmis.1 hm ha)
      (strideTooSmall_iff.2 (hwidth ▸ hs)))

end Sys2Proof.Machine
end

section
/-! SUPPORT. The claims about what a block reads and what it gives: O40, O42, O50 (44_render R205 to R209, R217; 41_classifier R139). -/

namespace Sys2Proof.Machine

/-! ### What a fetch reads (44_render R205, R206) -/

/-- The address of an element as a sum of naturals (20_memory R67). -/
theorem elemAddr_natCast (base stride : Word) (f : Format) (x y : Nat) :
    elemAddr base stride f x y = BitVec.ofNat 32 (base.toNat + y * stride.toNat + x * esz f) := by
  rw [elemAddr, ← BitVec.ofInt_natCast]
  push_cast; rfl

/-- A clamped coordinate is one of the raster. -/
theorem exists_clampInt_eq {d : BitVec 16} (hd : d ≠ 0#16) (v : Int) :
    ∃ c : Nat, c < d.toNat ∧ (c : Int) = clampInt v 0 (d.toNat - 1) := by
  have hpos : d.toNat ≠ 0 := fun h => hd (BitVec.toNat_inj.1 h)
  refine ⟨(clampInt v 0 (d.toNat - 1)).toNat, ?_, ?_⟩ <;> unfold clampInt <;> omega

theorem Job.fetch_raw {j : Job} (h : j.clamp = false) (x y : Int) :
    j.fetch x y = j.s0.readElem (esz j.fmt) (elemAddr j.src j.sstride j.fmt x y) := by
  rw [Job.fetch, Job.fetchAddr, h]
  rfl

theorem Job.fetch_clamp {j : Job} (h : j.clamp = true) (x y : Int) :
    j.fetch x y = j.s0.readElem (esz j.fmt)
      (elemAddr j.src j.sstride j.fmt (clampInt x 0 (j.w.toNat - 1)) (clampInt y 0 (j.h.toNat - 1))) := by
  rw [Job.fetch, Job.fetchAddr, h]
  rfl

/-- Settles O40, by the two modes of a fetch. -/
theorem fetchClampsOrReadsTheComputedAddress : Obligations.FetchClampsOrReadsTheComputedAddress := by
  intro j x y hw hh
  refine ⟨fun hc => ?_, fun hc => Job.fetch_raw hc x y⟩
  obtain ⟨cx, hcx, ex⟩ := exists_clampInt_eq hw x
  obtain ⟨cy, hcy, ey⟩ := exists_clampInt_eq hh y
  refine ⟨cx, cy, hcx, hcy, ex, ey, ?_⟩
  rw [Job.fetch_clamp hc, ← ex, ← ey, elemAddr_natCast]

/-! ### The read set of a block (44_render R209) -/

/-- Kernel A reads all that kernel B reads (41_classifier R139). -/
theorem readOffsets_b_subset (d : Desc) : readOffsets .b ⊆ readOffsets d := by
  cases d <;> decide

/-- Windows that agree at the offsets a kernel reads have the same block: they differ at most in M, O, P and, in kernel B, N. -/
theorem kernel_windowOf_congr (d : Desc) (f : Format) {u v : Int → Int → Word} (h : ∀ o ∈ readOffsets d, u o.1 o.2 = v o.1 o.2) :
    kernel d f (windowOf u) = kernel d f (windowOf v) := by
  have hrows : ∀ o ∈ readOffsets .b, u o.1 o.2 = v o.1 o.2 := fun _ ho => h _ (readOffsets_b_subset d ho)
  have hn : d = .a → u 2 0 = v 2 0 := fun hd => h (2, 0) (hd ▸ by decide)
  have hlast : windowOf u = { windowOf v with m := u 2 (-1), n := u 2 0, o := u 2 1, p := u 2 2 } := by
    simp only [readOffsets, List.forall_mem_cons] at hrows
    simp only [windowOf, hrows]
  rw [hlast]
  exact kernel_congr d f _ _ _ _ _ hn

/-- Settles O42: each element the kernel reads is read from the bytes on which the two memories agree. -/
theorem blockDependsOnItsReadSetOnly : Obligations.BlockDependsOnItsReadSetOnly := by
  intro j m c h
  refine kernel_windowOf_congr j.desc j.fmt fun o ho => Memory.readElem_congr fun a ha => ?_
  exact (h a (List.mem_flatMap.2 ⟨_, List.mem_map_of_mem ho, ha⟩)).symm

/-! ### A raster with one vertical edge (44_render R217) -/

/-- In clamp mode a raster whose rows are alike gives windows whose rows are alike. -/
theorem Job.fetch_of_rows_alike {j : Job} {col : Nat → Word} (hc : j.clamp = true) (hw : j.w ≠ 0#16) (hh : j.h ≠ 0#16)
    (hrows : ∀ cx cy : Nat, cx < j.w.toNat → cy < j.h.toNat →
      j.s0.readElem (esz j.fmt) (elemAddr j.src j.sstride j.fmt cx cy) = col cx) (x y : Int) :
    j.fetch x y = col (clampInt x 0 (j.w.toNat - 1)).toNat := by
  obtain ⟨cx, hcx, ex⟩ := exists_clampInt_eq hw x
  obtain ⟨cy, hcy, ey⟩ := exists_clampInt_eq hh y
  rw [Job.fetch_clamp hc, ← ex, ← ey, hrows cx cy hcx hcy, Int.toNat_natCast]

/-- A window of elements whose two middle rows are alike gives A in all four elements: it is EDGE, or its centre has one colour. -/
theorem kernel_of_rows_alike (d : Desc) {f : Format} {w : Window} (ha : IsElement f w.a) (hac : w.c = w.a) (hbd : w.d = w.b) :
    kernel d f w = ⟨w.a, w.a, w.a, w.a⟩ := by
  by_cases hab : w.a = w.b
  · exact kernel_of_flat_centre d ha hab.symm hac (hbd.trans hab.symm)
  · exact (edgeIsBroadcastAndDiagonalFollowsTheVote d f w).1 (.inr ⟨hab, hac.symm⟩)

/-- Settles O50: the rows of every window are alike, so its block holds only A, which is one of the two colours. -/
theorem verticalEdgeRasterStaysSharp : Obligations.VerticalEdgeRasterStaysSharp := by
  intro j k x y hc hw hh _ _ hsrc cx cy _ _ v hv
  have hfetch := Job.fetch_of_rows_alike (col := fun c => if c < k then x else y) hc hw hh hsrc
  have halike (vx vy vy' : Int) : j.fetch vx vy = j.fetch vx vy' := by rw [hfetch, hfetch]
  have hblock : j.block cx cy = ⟨(j.window cx cy).a, (j.window cx cy).a, (j.window cx cy).a, (j.window cx cy).a⟩ :=
    kernel_of_rows_alike j.desc (isElement_readElem _ _ _) (halike _ _ _) (halike _ _ _)
  have hcolour : (j.window cx cy).a = x ∨ (j.window cx cy).a = y := by
    change j.fetch _ _ = x ∨ j.fetch _ _ = y
    rw [hfetch]
    exact ite_eq_or_eq _ _ _
  rw [hblock] at hv
  obtain rfl : v = (j.window cx cy).a := by simpa using hv
  exact hcolour

end Sys2Proof.Machine
end

section
/-! SUPPORT. The claims about the engine steps of a RENDER: O43, O44, O45, O47, O48, O49 (44_render R203, R204, R208 to R215). -/

namespace Sys2Proof.Machine

/-! ### One engine step -/

theorem Job.remaining_ne_nil {j : Job} (h : ∃ c ∈ j.coords, c ∉ j.done) : j.remaining ≠ [] := by
  obtain ⟨c, hc, hn⟩ := h
  exact List.ne_nil_of_mem (Job.mem_remaining.2 ⟨hc, hn⟩)

/-- Memory holds the four elements of a destination block at their addresses (44_render R204, R208). -/
def Job.HoldsBlock (j : Job) (m : Memory) (c : Nat × Nat) : Prop :=
  ∀ e ∈ j.blockElems c, m.readElem (esz j.fmt) e.1 = e.2

/-- The elements of a block by their addresses as sums of naturals (44_render R208). -/
theorem Job.HoldsBlock.elems {j : Job} {m : Memory} {c : Nat × Nat} (h : j.HoldsBlock m c) :
    let b := kernel j.desc j.fmt (j.window c.1 c.2)
    let elem (x y : Nat) := m.readElem (esz j.fmt) (BitVec.ofNat 32 (j.dst.toNat + y * j.dstride.toNat + x * esz j.fmt))
    elem (2 * c.1) (2 * c.2) = b.p00 ∧ elem (2 * c.1 + 1) (2 * c.2) = b.p01 ∧
      elem (2 * c.1) (2 * c.2 + 1) = b.p10 ∧ elem (2 * c.1 + 1) (2 * c.2 + 1) = b.p11 := by
  simp only [Job.HoldsBlock, Job.blockElems, List.forall_mem_cons, Job.destAddr_eq] at h
  obtain ⟨h00, h01, h10, h11, -⟩ := h
  exact ⟨h00, h01, h10, h11⟩

/-- The elements of a block fit the element. -/
theorem Job.isElement_of_mem_blockElems {j : Job} {c : Nat × Nat} {e : Addr × Word} (he : e ∈ j.blockElems c) :
    IsElement j.fmt e.2 := by
  obtain ⟨h00, h01, h10, h11⟩ := j.isElement_block c.1 c.2
  simp only [Job.blockElems, List.mem_cons, List.not_mem_nil, or_false] at he
  rcases he with rfl | rfl | rfl | rfl <;> assumption

/-- A written block is held, where its bytes are all different. -/
theorem Job.holdsBlock_writeBlock {j : Job} {m : Memory} (hm : m.wf = true) {c : Nat × Nat} (hn : (j.blockBytes c).Nodup) :
    j.HoldsBlock (j.writeBlock m c) c := fun _ he =>
  Job.readElem_writeBlock hm hn he (Job.isElement_of_mem_blockElems he)

/-- Holding a block is a matter of its bytes. -/
theorem Job.HoldsBlock.congr {j : Job} {m m' : Memory} {c : Nat × Nat} (h : j.HoldsBlock m c)
    (hread : ∀ a ∈ j.blockBytes c, m'.read a = m.read a) : j.HoldsBlock m' c := fun e he => by
  have haddr : e.1 ∈ j.writesOf c := List.mem_map_of_mem (f := Prod.fst) he
  rw [← h e he]
  exact Memory.readElem_congr fun a ha => hread a (List.mem_flatMap.2 ⟨e.1, haddr, ha⟩)

/-- Settles O43: the step writes the block of a coordinate that remains (`engineStep_served`). -/
theorem engineStepDoesOneBlock : Obligations.EngineStepDoesOneBlock := by
  intro s j choice hj hs hp hleft
  obtain ⟨c, hc, e⟩ := engineStep_served hj hs hp (Job.remaining_ne_nil hleft) choice
  obtain ⟨hcoord, hnew⟩ := Job.mem_remaining.1 hc
  rw [e]
  refine ⟨c, hcoord, hnew, rfl, fun d => mem_insertBlock, rfl, fun hm hn => ?_, fun a ha => ?_, ?_, rfl⟩
  · exact (Job.holdsBlock_writeBlock hm (Job.nodup_blockBytes hn hcoord)).elems
  · exact j.read_writeBlock_of_notMem s.mem ha
  · exact sameRegsExcept_nil_of_isSome_eq (by rw [hj]; rfl) _ _ _

/-- Settles O44: the step is `engineFinish`, a completion after `finishMem`. -/
theorem engineStepCompletesAFinishedRender : Obligations.EngineStepCompletesAFinishedRender := by
  intro s j choice hj hs hdone
  obtain ⟨hregs, hslots, -⟩ := engineStep_same choice s
  have e := engineStep_finish hj hs (Job.remaining_eq_nil.2 hdone) choice
  refine ⟨?_, hregs, hslots, fun a ha => ?_, fun hdef a => ?_⟩ <;> rw [e]
  · exact ⟨rfl, rfl, rfl, rfl⟩
  · exact read_finishMem_of_notMem s ha
  · exact congrArg (Memory.read · a) (finishMem_of_defined hdef)

theorem finishMem_congr {s t : State} (hm : t.mem = s.mem) (hp : t.platform = s.platform) (hd : t.draws = s.draws) (j : Job) :
    finishMem j t = finishMem j s := by
  simp only [finishMem, hm, hp, hd]

theorem engineBlock_congr {s t : State} (hm : t.mem = s.mem) (hp : t.platform = s.platform) (j : Job) (c : Nat × Nat) :
    (engineBlock j c t).mem = (engineBlock j c s).mem ∧ (engineBlock j c t).engine = (engineBlock j c s).engine := by
  unfold engineBlock
  rw [hm, hp]
  split <;> exact ⟨rfl, rfl⟩

/-- The block an engine step takes, among those that remain (44_render R215). -/
theorem engineStep_pick {s : State} {j : Job} {c : Nat × Nat} {cs : List (Nat × Nat)} (h : s.engine = some j) (hs : j.stuck = false)
    (hr : j.remaining = c :: cs) (choice : Option Nat) : engineStep choice s =
      { engineBlock j (pickBlock (choice.getD (Config.freePick s.draws)) c cs) s with draws := s.draws + 1 } := by
  rw [engineStep, h]
  simp [hs, hr]

/-- An engine step depends on the RENDER in progress, memory, the platform's map and the draw counter alone. -/
theorem engineStep_congr {s t : State} (he : t.engine = s.engine) (hm : t.mem = s.mem) (hp : t.platform = s.platform)
    (hd : t.draws = s.draws) (choice : Option Nat) :
    (engineStep choice t).mem = (engineStep choice s).mem ∧ (engineStep choice t).engine = (engineStep choice s).engine := by
  cases hj : s.engine with
  | none => simp only [engineStep_none hj, engineStep_none (he.trans hj), hm, he, and_self]
  | some j =>
    have hjt : t.engine = some j := he.trans hj
    cases hs : j.stuck with
    | true => simp only [engineStep_stuck hj hs, engineStep_stuck hjt hs, hm, he, and_self]
    | false =>
      cases hr : j.remaining with
      | nil =>
        rw [engineStep_finish hj hs hr, engineStep_finish hjt hs hr]
        exact ⟨finishMem_congr hm hp hd j, rfl⟩
      | cons c cs =>
        rw [engineStep_pick hj hs hr, engineStep_pick hjt hs hr, hd]
        exact engineBlock_congr hm hp j _

/-- Settles O45: a store to a register reaches nothing that an engine step depends on. -/
theorem runningRenderDependsOnNoRegister : Obligations.RunningRenderDependsOnNoRegister := by
  intro s t r v choice hr ht
  obtain rfl := Host.Outcome.next.inj ((hostWrite_reg v s hr).symm.trans ht)
  obtain ⟨-, hengine, -, hplatform, -, -, hdraws⟩ := storeReg_frame r v s
  refine engineStep_congr hengine ?_ hplatform hdraws choice
  cases r <;> rfl

/-! ### A whole RENDER -/

/-- The engine actions of a script, as many as are to be run. -/
theorem run_engine_take {choices : List (Option Nat)} {s : State} {rest : List Action} {k : Nat} (hk : k ≤ choices.length)
    (h : s.script = choices.map .engine ++ rest) : Host.Core.run Sys2Proof.core k s =
      .next { (choices.take k).foldl (fun u c => engineStep c u) s with script := (choices.drop k).map .engine ++ rest } := by
  have hsplit : s.script = (choices.take k).map .engine ++ ((choices.drop k).map .engine ++ rest) := by
    rw [h, ← List.append_assoc, ← List.map_append, List.take_append_drop]
  have hrun := run_engine (choices.take k) s _ hsplit
  rwa [List.length_take_of_le hk] at hrun

/-- Settles O47: w·h steps do the blocks, BUSY being 1 until then, and the last one completes the RENDER. -/
theorem renderCompletesInWidthTimesHeightPlusOneSteps : Obligations.RenderCompletesInWidthTimesHeightPlusOneSteps := by
  intro s j choices rest ha hp hl hscript
  refine ⟨fun k hk => ⟨_, run_engine_take (by omega) hscript, ?_⟩, ?_⟩
  · obtain ⟨hj, hdone, hs, -⟩ := ha
    refine busy_foldl_engineStep (choices.take k) s j hj hs hp ?_
    rw [Job.remaining_of_done_nil hdone, Job.length_coords, List.length_take]
    omega
  · obtain ⟨d, m, n, n', e, hout, -⟩ := foldl_engineStep_render ha hp hl
    have hrun := run_engine choices s rest hscript
    rw [hl, e] at hrun
    refine ⟨_, hrun, rfl, ⟨rfl, rfl, rfl, rfl⟩, fun r hr => ?_, rfl, fun a hna => ?_⟩
    · cases r with
      | status => simp at hr
      | _ => rfl
    · exact (read_finishMem_of_notMem _ hna).trans (hout a hna)

/-- At the completion of a RENDER whose result is defined each destination byte is as its block writes it, over any memory
(44_render R204, R211). -/
theorem read_completedRender {s : State} {j : Job} {choices : List (Option Nat)} (ha : JustAccepted j s) (hj : j.Coherent)
    (hp : j.Served s.platform) (hdef : j.anyValue s.platform = false) (hl : choices.length = j.w.toNat * j.h.toNat + 1)
    {c : Nat × Nat} (hc : c ∈ j.coords) {a : Addr} (hin : a ∈ j.blockBytes c) {m : Memory} (hm : m.wf = true) :
    (choices.foldl (fun u c => engineStep c u) s).mem.read a = (j.writeBlock m c).read a := by
  obtain ⟨d, m', n, n', e, -, hblocks⟩ := foldl_engineStep_render ha hp hl
  obtain ⟨-, -, -, hs0⟩ := ha
  obtain ⟨-, hwritten⟩ := hblocks (hs0 ▸ hj.s0_wf) (Job.nodup_of_anyValue_false hdef)
  rw [e]
  refine (congrArg (Memory.read · a) (finishMem_of_defined ?_)).trans (hwritten c hc a hin m hm)
  exact hdef

/-- Settles O48: each byte of a block is as written over memory, so the block's four elements are held. -/
theorem renderWritesTheKernelOfEveryWindow : Obligations.RenderWritesTheKernelOfEveryWindow := by
  intro s j choices rest ha hj hp hdef hl hscript
  have hrun := run_engine choices s rest hscript
  rw [hl] at hrun
  refine ⟨_, hrun, ?_, fun x y hx hy => ?_⟩
  · obtain ⟨d, m, n, n', e, -⟩ := foldl_engineStep_render ha hp hl
    rw [e]
    rfl
  · have hc : (x, y) ∈ j.coords := Job.mem_coords.2 ⟨hx, hy⟩
    have hwritten := Job.holdsBlock_writeBlock hj.s0_wf (Job.nodup_blockBytes (Job.nodup_of_anyValue_false hdef) hc)
    exact (hwritten.congr fun a hin => read_completedRender ha hj hp hdef hl hc hin hj.s0_wf).elems

/-- What a block writes depends on S0 through the block's read set alone (O42). -/
theorem Job.writeBlock_withS0 {j : Job} {m : Memory} {c : Nat × Nat}
    (h : ∀ a ∈ (j.readsOf c).flatMap (elemBytes (esz j.fmt)), j.s0.read a = m.read a) (m' : Memory) :
    ({ j with s0 := m } : Job).writeBlock m' c = j.writeBlock m' c := by
  have helems : ({ j with s0 := m } : Job).blockElems c = j.blockElems c := by
    simp only [Job.blockElems, blockDependsOnItsReadSetOnly j m c h]
    rfl
  exact congrArg (List.foldl _ m') helems

/-- Settles O49: each destination byte is as its block writes it, over one and the same memory. -/
theorem renderIsDeterministicInItsReadSet : Obligations.RenderIsDeterministicInItsReadSet := by
  intro s s' j j' choices choices' ha ha' hj hj' hlatch hp hp' hdef hdef' hl hl' hagree a hd
  obtain ⟨m, rfl⟩ : ∃ m, j' = { j with s0 := m } := ⟨_, hlatch⟩
  have ⟨_, _, _, hs0⟩ := ha
  have ⟨_, _, _, hs0'⟩ := ha'
  obtain ⟨c, hc, hin⟩ := Job.mem_dsetBytes.1 hd
  have hreads : ∀ a ∈ (j.readsOf c).flatMap (elemBytes (esz j.fmt)), j.s0.read a = m.read a := fun a hr => by
    rw [hs0, show m = s'.mem from hs0']
    exact hagree a (j.rsetBytes_eq ▸ List.mem_flatMap.2 ⟨c, hc, hr⟩)
  calc (choices.foldl (fun u c => engineStep c u) s).mem.read a
      = (j.writeBlock j.s0 c).read a := read_completedRender ha hj hp hdef hl hc hin hj.s0_wf
    _ = (({ j with s0 := m } : Job).writeBlock j.s0 c).read a := by rw [Job.writeBlock_withS0 hreads]
    _ = (choices'.foldl (fun u c => engineStep c u) s').mem.read a :=
        (read_completedRender ha' hj' hp' hdef' hl' hc hin hj.s0_wf).symm

end Sys2Proof.Machine
end

section
/-! SUPPORT. The claims about the interrupt line, a command request and an idle block: O14, O5, O7, O57 (60_exceptions R231, R233, R240,
R241, R249). -/

namespace Sys2Proof.Machine

/-! ### The interrupt line (60_exceptions R240, R241) -/

theorem ctrlWord_ie (s : State) : (ctrlWord s).getLsbD 1 = s.ctrlIe := by
  unfold ctrlWord
  cases s.ctrlIe <;> cases s.ctrlClamp <;> decide

/-- The line as the host reads it, from STATUS and CTRL. -/
theorem irq_eq_readReg (s : State) : s.irq = ((readReg .status s).getLsbD 1 && (readReg .ctrl s).getLsbD 1) := by
  obtain ⟨-, hdone, -⟩ := statusWord_fields s
  exact congrArg₂ and hdone.symm (ctrlWord_ie s).symm

/-- An acknowledge takes the line down. -/
@[simp] theorem writeStatus_irq (v : Word) (s : State) : (writeStatus v s).irq = (s.irq && !v.getLsbD 1) :=
  Bool.and_right_comm ..

/-- A store to CTRL moves the line at once. -/
@[simp] theorem writeCtrl_irq (v : Word) (s : State) : (writeCtrl v s).irq = (s.statusDone && v.getLsbD 1) := rfl

/-- A command that leaves BUSY at 0 has completed (60_exceptions R231): DONE is 1, and IE is as before. -/
theorem exec_idle {i : Instr} {s t : State} (h : exec i s = .next t) (hbusy : t.busy = false) :
    t.statusDone = true ∧ t.ctrlIe = s.ctrlIe := by
  obtain ⟨t', ht', hcompleted | hstarted⟩ := exec_next i s
  all_goals obtain rfl := Host.Outcome.next.inj (ht'.symm.trans h)
  · obtain ⟨err, u, rfl, -, hie⟩ := hcompleted
    exact ⟨rfl, hie⟩
  · obtain ⟨slot, inst, -, -, -, rfl⟩ := hstarted
    cases hbusy

/-- Settles O14: a command that has completed leaves DONE at 1 and IE as it was; each store sets the one field of the line it writes. -/
theorem interruptLineFollowsCompletionAndAcknowledge : Obligations.InterruptLineFollowsCompletionAndAcknowledge := by
  refine ⟨irq_eq_readReg, fun i s t h hbusy => ?_, fun s t v hv h => ?_, fun _ _ => rfl, fun s t v h => ?_⟩
  · obtain ⟨hdone, hie⟩ := exec_idle h hbusy
    rw [State.irq, hdone, hie]
    exact (ctrlWord_ie s).symm
  · obtain rfl := Host.Outcome.next.inj ((hostWrite_reg (r := .status) v s (by decide)).symm.trans h)
    simp [storeReg, hv]
  · obtain rfl := Host.Outcome.next.inj ((hostWrite_reg (r := .ctrl) v s (by decide)).symm.trans h)
    obtain ⟨-, hdone, -⟩ := statusWord_fields s
    exact (writeCtrl_irq v s).trans (congrArg (· && v.getLsbD 1) hdone.symm)

/-! ### A command request (60_exceptions R233) -/

/-- The host's write to CMD, when it is the next action, is a request on the state less that action. -/
theorem step_cmdWrite {s : State} {c : Word} {rest : List Action} (h : s.script = .regWrite 0x10#8 .word c :: rest) :
    step s = request c { s with script := rest } :=
  (step_cons h).trans (hostWrite_cmd c _)

theorem decode_of_decodeTableWord {nbits w : Nat} {i : Instr} (h : decodeTableWord nbits w = some i) :
    decode (BitVec.ofNat 32 w) = .ok i := by
  unfold decodeTableWord at h
  split at h
  · split at h
    · rwa [← Option.some.inj h]
    · cases h
  · cases h

/-- Settles O5: the request is accepted; `withFetchWord` makes the engine idle and puts the write to CMD first. -/
theorem stepRunsTheDecodedCommand : Obligations.StepRunsTheDecodedCommand := by
  refine ⟨fun s c i rest hscript hbusy hd => ?_, fun s nbits w i hd => ?_⟩
  · exact (step_cmdWrite hscript).trans (request_ok hbusy hd)
  · have hplaced : step (s.withFetchWord nbits w) = request (BitVec.ofNat 32 w) { s with engine := none } := step_cmdWrite rfl
    exact hplaced.trans (request_ok rfl (decode_of_decodeTableWord hd))

/-- Settles O7: the request is dropped. -/
theorem cmdWriteWhileBusyOnlySetsOvr : Obligations.CmdWriteWhileBusyOnlySetsOvr := by
  intro s c rest hscript hbusy
  exact (step_cmdWrite hscript).trans (request_busy c hbusy)

/-! ### An idle block (60_exceptions R249) -/

/-- Settles O57: with an empty script the engine is next, and it has no RENDER to work on. -/
theorem idleBlockHoldsItsState : Obligations.IdleBlockHoldsItsState := by
  intro s hbusy hscript
  rw [step_nil hscript, engineStep_none (engine_of_not_busy hbusy)]

end Sys2Proof.Machine
end

section
/-! SUPPORT. The claims about reset: O56, O55, O58 (70_reset_and_hazards R260 to R263). -/

namespace Sys2Proof.Machine

/-! ### The reset state (70_reset_and_hazards R261) -/

/-- No slot is live at reset, nor any number beyond the slots. -/
theorem instAt_reset (i : Nat) : instAt State.reset i = none := by
  by_cases hi : i < Config.nslot
  · simp [instAt, State.reset, hi]
  · exact instAt_eq_none_of_le _ (Nat.le_of_not_lt hi)

/-- Settles O55, a register at a time; the latches read 0 because no RENDER is in progress. -/
theorem resetStateHoldsTheResetValues : Obligations.ResetStateHoldsTheResetValues := by
  refine ⟨fun r => ?_, fun i => slot_of_free (instAt_reset i), rfl, rfl, rfl, rfl, rfl, rfl, rfl, rfl, rfl, rfl, rfl, rfl⟩
  cases r with
  | win k => exact Vector.getElem_replicate k.isLt
  | _ => rfl

/-- Settles O58: the engine is idle at reset, and the empty memory is canonical. -/
theorem invariantHoldsAtReset : Obligations.InvariantHoldsAtReset :=
  ⟨.of_idle rfl rfl, .of_idle rfl⟩

/-! ### A reset between two steps (70_reset_and_hazards R260 to R263) -/

/-- Every register reads after a reset as in the reset state, whatever memory and the host's script hold. -/
theorem readReg_resetStep (r : Reg) (s : State) : readReg r (resetStep s) = readReg r State.reset := by
  cases r <;> rfl

/-- Settles O56: slots and registers are those of the reset state, memory is `resetMem`. -/
theorem resetStepRestoresTheRegistersAndSparesMemory : Obligations.ResetStepRestoresTheRegistersAndSparesMemory := by
  intro s rest hscript
  exact ⟨resetStep { s with script := rest }, step_cons hscript, fun r => readReg_resetStep r _, instAt_reset, rfl, rfl, rfl,
    fun _ ha => read_resetMem { s with script := rest } ha⟩

end Sys2Proof.Machine
end
